-- ==== Sys2Proof/Word.lean ====
section
/-! DEFINITION. Word types of the Simple8B codec core (spec/00_scope.md R5, R6). -/

namespace Sys2Proof

/-- `WORD_BITS = 64`: an EncodedWord, a value element, the accumulator, the shift register (R5, R7). -/
abbrev Word := BitVec 64

/-- `SEL_BITS = 4`: a selector, the ROM's address (R5, R70). -/
abbrev Sel := BitVec 4

/-- One stored byte of the host's memory; the block itself never sees one (R36). -/
abbrev Byte := BitVec 8

end Sys2Proof
end

