-- ==== Sys2Proof/Syntax.lean ====
section
/-! DEFINITION. The instructions of spec/opcode_table.json, their operands, and the raw form in which the
host presents one to the block (spec/10_state.md R12, R13; spec/30_encoding.md R55, R57, R60). -/

namespace Sys2Proof

/-- PACK's `IN` operand (R13), in the two forms of R60: elements `base … base+len-1` of the host's
storage (`<buf>[<lo>:<hi>]`, `N = hi - lo`), or a list of values that stands for a buffer
(notes/assumptions/8). -/
inductive InBuf where
  | slice (base len : Nat)
  | values (vs : List Word)
  deriving DecidableEq, Repr

/-- UNPACK's `OUT` operand (R13): `cap` elements of the host's storage from `base`; its capacity `C` is `cap`. -/
structure OutBuf where
  base : Nat
  cap : Nat
  deriving DecidableEq, Repr

/-- The `WORD` operand (R13), in the two forms of R60: a 64-bit literal, or a host variable, whose value is
latched when the command starts. -/
inductive WordArg where
  | lit (w : Word)
  | elem (e : Nat)
  deriving DecidableEq, Repr

/-- One constructor per row of spec/opcode_table.json. The first sixteen are the EncodedWord layouts of R55,
each with the row's fields (slots of the row's width, slot 0 first, and the unused bits) and the buffer the
word is decoded into (notes/assumptions/1). The last four are the commands of R57. -/
inductive Instr where
  | wordSel0 (unused : BitVec 60) (out : OutBuf)
  | wordSel1 (unused : BitVec 60) (out : OutBuf)
  | wordSel2 (slots : Vector (BitVec 1) 60) (out : OutBuf)
  | wordSel3 (slots : Vector (BitVec 2) 30) (out : OutBuf)
  | wordSel4 (slots : Vector (BitVec 3) 20) (out : OutBuf)
  | wordSel5 (slots : Vector (BitVec 4) 15) (out : OutBuf)
  | wordSel6 (slots : Vector (BitVec 5) 12) (out : OutBuf)
  | wordSel7 (slots : Vector (BitVec 6) 10) (out : OutBuf)
  | wordSel8 (slots : Vector (BitVec 7) 8) (unused : BitVec 4) (out : OutBuf)
  | wordSel9 (slots : Vector (BitVec 8) 7) (unused : BitVec 4) (out : OutBuf)
  | wordSel10 (slots : Vector (BitVec 10) 6) (out : OutBuf)
  | wordSel11 (slots : Vector (BitVec 12) 5) (out : OutBuf)
  | wordSel12 (slots : Vector (BitVec 15) 4) (out : OutBuf)
  | wordSel13 (slots : Vector (BitVec 20) 3) (out : OutBuf)
  | wordSel14 (slots : Vector (BitVec 30) 2) (out : OutBuf)
  | wordSel15 (slots : Vector (BitVec 60) 1) (out : OutBuf)
  | pack (input : InBuf) (outWord : Nat)
  | unpack (word : WordArg) (out : OutBuf)
  | countPacked (word : WordArg)
  | illegalCommand
  deriving DecidableEq, Repr

/-- The operand lines of the command port (R13). A command uses those of its row and ignores the others. -/
structure Operands where
  inBuf : InBuf
  outWord : Nat
  word : WordArg
  out : OutBuf
  deriving DecidableEq, Repr

/-- Operand lines at zero: no input element, host element 0, the word 0, no output element. -/
def Operands.zero : Operands := ⟨.slice 0 0, 0, .lit 0, ⟨0, 0⟩⟩

/-- What the host presents, undecoded: the code `CMD.op[1:0]` with the operand lines (R12), or an
EncodedWord for the unpacker with an output buffer (notes/assumptions/1). -/
inductive Request where
  | command (op : BitVec 2) (ops : Operands)
  | word (w : Word) (out : OutBuf)
  deriving DecidableEq, Repr

end Sys2Proof
end

