-- ==== Sys2Proof/Decode.lean ====
section
/-! DEFINITION. The decoder and the encoder of the two encodings of spec/30_encoding.md: the EncodedWord
layouts (R50, R51, R55) and the command codes (R57). -/

namespace Sys2Proof

/-! ## Decoding -/

/-- The selector extractor, `SELX(word) = word[63:60]` (spec/44_selector_extractor.md R160). -/
def selx (w : Word) : Sel := w.extractLsb' 60 4

/-- The slots of a word under a layout of `n` slots of `width` bits: slot `i` at bits
`[i*width + width - 1 : i*width]` (R51, R55). -/
def slotsOf (width n : Nat) (w : Word) : Vector (BitVec width) n :=
  Vector.ofFn fun i => w.extractLsb' (i * width) width

/-- An EncodedWord with its output buffer as the row of R55 that bits 63:60 select. Sixteen selector values,
sixteen rows: no pattern is left over (R54). -/
def decodeWord (w : Word) (out : OutBuf) : Instr :=
  match (selx w).toNat with
  | 0 => .wordSel0 (w.extractLsb' 0 60) out
  | 1 => .wordSel1 (w.extractLsb' 0 60) out
  | 2 => .wordSel2 (slotsOf 1 60 w) out
  | 3 => .wordSel3 (slotsOf 2 30 w) out
  | 4 => .wordSel4 (slotsOf 3 20 w) out
  | 5 => .wordSel5 (slotsOf 4 15 w) out
  | 6 => .wordSel6 (slotsOf 5 12 w) out
  | 7 => .wordSel7 (slotsOf 6 10 w) out
  | 8 => .wordSel8 (slotsOf 7 8 w) (w.extractLsb' 56 4) out
  | 9 => .wordSel9 (slotsOf 8 7 w) (w.extractLsb' 56 4) out
  | 10 => .wordSel10 (slotsOf 10 6 w) out
  | 11 => .wordSel11 (slotsOf 12 5 w) out
  | 12 => .wordSel12 (slotsOf 15 4 w) out
  | 13 => .wordSel13 (slotsOf 20 3 w) out
  | 14 => .wordSel14 (slotsOf 30 2 w) out
  | _ => .wordSel15 (slotsOf 60 1 w) out

/-- A command code with the operand lines as the row of R57; each row takes its own operands (R13). -/
def decodeCommand (op : BitVec 2) (ops : Operands) : Instr :=
  match op.toNat with
  | 0 => .pack ops.inBuf ops.outWord
  | 1 => .unpack ops.word ops.out
  | 2 => .countPacked ops.word
  | _ => .illegalCommand

/-- The instruction the host presents. Total: every code and every word has a row (R54, R57). -/
def decode : Request → Instr
  | .command op ops => decodeCommand op ops
  | .word w out => decodeWord w out

/-- Why a string of bits is no encoding of the block. -/
inductive DecodeError where
  /-- Neither a command code (its 2 bits in one byte) nor a 64-bit EncodedWord. -/
  | noEncodingOfWidth (nbits : Nat)
  deriving DecidableEq, Repr

/-- The request that `nbits` presented bits with number `w` make, every operand line at zero. A command code
is 2 bits (R57), presented in one byte whose other bits do not reach the block; an EncodedWord is always 64
bits (R55). -/
def requestOf (nbits w : Nat) : Except DecodeError Request :=
  if 2 ≤ nbits ∧ nbits ≤ 8 then .ok (.command (BitVec.ofNat 2 w) Operands.zero)
  else if nbits = 64 then .ok (.word (BitVec.ofNat 64 w) Operands.zero.out)
  else .error (.noEncodingOfWidth nbits)

/-- The instruction that `nbits` presented bits with number `w` decode to, or the decoder's reason. -/
def decodeBits (nbits w : Nat) : Except DecodeError Instr :=
  (requestOf nbits w).map decode

/-- The decoder on an opcode-table row's word, bit 0 its least significant bit. -/
def decodeTableWord (nbits w : Nat) : Option Instr :=
  match decodeBits nbits w with
  | .ok i => some i
  | .error _ => none

/-! ## Encoding -/

/-- The fields of `slots`, slot `i` in bits `[i*width + width - 1 : i*width]` (R51), the first one given at
slot number `i`. -/
def placeSlots (width : Nat) (i : Nat) : List (BitVec width) → Word
  | [] => 0
  | v :: vs => (v.setWidth 64 <<< (i * width)) ||| placeSlots width (i + 1) vs

/-- The selector field, bits 63:60 (R50). -/
def placeSel (s : Sel) : Word := s.setWidth 64 <<< 60

/-- A word of a layout whose slots fill its payload (R55). -/
def encodeSlots (s : Sel) {width n : Nat} (slots : Vector (BitVec width) n) : Word :=
  placeSel s ||| placeSlots width 0 slots.toList

/-- The raw form of an instruction: a layout's fields in their places (R55), or a command's code (R57) with its
own operands and the other lines at zero. -/
def encode : Instr → Request
  | .wordSel0 unused out => .word (placeSel 0 ||| unused.setWidth 64) out
  | .wordSel1 unused out => .word (placeSel 1 ||| unused.setWidth 64) out
  | .wordSel2 slots out => .word (encodeSlots 2 slots) out
  | .wordSel3 slots out => .word (encodeSlots 3 slots) out
  | .wordSel4 slots out => .word (encodeSlots 4 slots) out
  | .wordSel5 slots out => .word (encodeSlots 5 slots) out
  | .wordSel6 slots out => .word (encodeSlots 6 slots) out
  | .wordSel7 slots out => .word (encodeSlots 7 slots) out
  | .wordSel8 slots unused out => .word (encodeSlots 8 slots ||| (unused.setWidth 64 <<< 56)) out
  | .wordSel9 slots unused out => .word (encodeSlots 9 slots ||| (unused.setWidth 64 <<< 56)) out
  | .wordSel10 slots out => .word (encodeSlots 10 slots) out
  | .wordSel11 slots out => .word (encodeSlots 11 slots) out
  | .wordSel12 slots out => .word (encodeSlots 12 slots) out
  | .wordSel13 slots out => .word (encodeSlots 13 slots) out
  | .wordSel14 slots out => .word (encodeSlots 14 slots) out
  | .wordSel15 slots out => .word (encodeSlots 15 slots) out
  | .pack input outWord => .command 0b00 { Operands.zero with inBuf := input, outWord := outWord }
  | .unpack word out => .command 0b01 { Operands.zero with word := word, out := out }
  | .countPacked word => .command 0b10 { Operands.zero with word := word }
  | .illegalCommand => .command 0b11 Operands.zero

/-! ## Rows of the opcode table -/

/-- The fixed bits of an opcode-table row: a selector in bits 63:60, or a command code. -/
inductive RowBits where
  | layout (s : Sel)
  | command (op : BitVec 2)
  deriving DecidableEq, Repr

/-- The fixed bits a request carries. -/
def Request.rowBits : Request → RowBits
  | .word w _ => .layout (selx w)
  | .command op _ => .command op

/-- The `match` column of the instruction's row in spec/opcode_table.json. -/
def Instr.rowBits : Instr → RowBits
  | .wordSel0 _ _ => .layout 0
  | .wordSel1 _ _ => .layout 1
  | .wordSel2 _ _ => .layout 2
  | .wordSel3 _ _ => .layout 3
  | .wordSel4 _ _ => .layout 4
  | .wordSel5 _ _ => .layout 5
  | .wordSel6 _ _ => .layout 6
  | .wordSel7 _ _ => .layout 7
  | .wordSel8 _ _ _ => .layout 8
  | .wordSel9 _ _ _ => .layout 9
  | .wordSel10 _ _ => .layout 10
  | .wordSel11 _ _ => .layout 11
  | .wordSel12 _ _ => .layout 12
  | .wordSel13 _ _ => .layout 13
  | .wordSel14 _ _ => .layout 14
  | .wordSel15 _ _ => .layout 15
  | .pack _ _ => .command 0b00
  | .unpack _ _ => .command 0b01
  | .countPacked _ => .command 0b10
  | .illegalCommand => .command 0b11

end Sys2Proof
end

