-- ==== Sys2Proof/Machine/State.lean ====
section
/-! DEFINITION. The state of one block and of the host storage it reaches (spec/10_state.md,
spec/20_memory.md), the ways a step can stop, and the state after reset. -/

namespace Sys2Proof.Machine

/-- The host's storage as the block reaches it: 64-bit elements by index, the unit of access of R30 and R37
(the spec has no byte addresses, D5, so a cell holds an element; notes/assumptions/2). Canonical form:
`Memory.wf`. -/
abbrev Memory := List (Nat × Word)

/-- The packer's command-local registers, at the widths of R16. -/
structure PackRegs where
  sel : BitVec 4
  cnt : BitVec 8
  idx : BitVec 8
  stop : BitVec 1
  acc : Word
  deriving DecidableEq, Repr

/-- The unpacker's command-local registers, at the widths of R17. -/
structure UnpackRegs where
  usel : BitVec 4
  uw : BitVec 6
  ucnt : BitVec 8
  mask : Word
  sr : Word
  i : BitVec 8
  deriving DecidableEq, Repr

/-- What the outside world does next to the block or to its own storage (notes/assumptions/6). -/
inductive HostInput where
  /-- The host gives the block a command or a word (R12). -/
  | issue (r : Request)
  /-- The host writes one of its own elements, between commands (R30, R195 item 4). -/
  | store (e : Nat) (v : Word)
  /-- Reset, between commands (R190). -/
  | reset
  /-- Reset while this command is in progress (R192; notes/assumptions/7). -/
  | resetDuring (r : Request)
  deriving DecidableEq, Repr

/-- One block instance. The selector ROM is constant and hard-wired (R11, R76): it is the definition `rom`,
not a field. -/
structure Block where
  /-- What the host does, in the order it does it (R12, R40); the block is idle when nothing is left. -/
  issued : List HostInput
  /-- `STATUS`, the response register of R14, the only flag (R20). -/
  status : BitVec 2
  /-- `COUNT`, the response register of R14. -/
  count : BitVec 8
  /-- The packer's registers (R16), unspecified outside a PACK (R23). -/
  pk : PackRegs
  /-- The unpacker's registers (R17), unspecified outside an UNPACK (R23). -/
  up : UnpackRegs
  /-- The model's own counter of free draws (notes/assumptions/4). -/
  draws : Nat
  deriving DecidableEq, Repr

/-- One block and the host's storage. -/
structure State extends Block where
  /-- The host's storage: the elements of every `IN`, `OUT_WORD` and `OUT` (R13, R30). -/
  mem : Memory
  deriving DecidableEq, Repr

/-- The block takes no trap (R174) and names no condition that stops it: every error is a status in the
response (R170). So no fault exists. -/
inductive Fault
  deriving DecidableEq, Repr

/-- Why an instruction has no meaning. -/
inductive Refusal where
  /-- Raised by an arm of `exec` whose instruction has no meaning yet; no arm is left so. Safe. -/
  | notModelled (mnemonic : String)
  /-- Raised by PACK when `OUT_WORD` is an element of its own `IN`: R41, "refused: it has no meaning in this
  spec, and a model gives it none". Safe. -/
  | overlappingOperands
  /-- Raised by `System.together` when commands of different instances that run at the same time have
  overlapping buffers: R41 asks that they be disjoint, and I9 of spec/93_implementation_defined.md refuses
  the others. Safe. -/
  | overlappingCommands
  /-- Raised by `System.stepAt` for a block number that no instance has (R178). Safe. -/
  | noSuchInstance
  deriving DecidableEq, Repr

/-- Right after reset (R23, R190): the block is idle; nothing is listed in the host's storage. The spec leaves
`STATUS`, `COUNT` and the command-local registers unspecified; they are 0 here as a named value
(DESIGN CHOICE, notes/assumptions/3), and so is the model's own draw counter. -/
def State.reset : State where
  issued := []
  status := 0
  count := 0
  pk := ⟨0, 0, 0, 0, 0⟩
  up := ⟨0, 0, 0, 0, 0, 0⟩
  draws := 0
  mem := []

end Sys2Proof.Machine
end

