-- ==== Sys2Proof/Machine/Flags.lean ====
section
/-! DEFINITION. The status codes (spec/30_encoding.md R58): `STATUS` is the only flag of the block (R20). -/

namespace Sys2Proof.Machine

/-- OK, of every command that completes (R58). -/
def Status.ok : BitVec 2 := 0b00

/-- VALUE_TOO_LARGE, of PACK only (R58, R171). -/
def Status.valueTooLarge : BitVec 2 := 0b01

/-- ILLEGAL_COMMAND, of op 0b11 only (R58, R172). -/
def Status.illegalCommand : BitVec 2 := 0b10

end Sys2Proof.Machine
end

