-- ==== Sys2Proof/Config.lean ====
section
/-! DEFINITION. The OPEN parameters of spec/00_scope.md R5 and the free values of
spec/93_implementation_defined.md (I5, I6, I7). -/

namespace Sys2Proof

/-- A free draw of `w` bits: a value the spec calls unspecified ("any value": I5, I6, I7; R23, R190, R192).
It has no body, so nothing can evaluate it. The second argument is the draw's number, which the state
counts (`Block.draws`), so two draws of one run are two different applications (notes/assumptions/4). -/
opaque Config.freeValue (w : Nat) : Nat → BitVec w

/-- The parameters R5 marks OPEN. The block's step takes none of them: its semantics are those of an
unbounded `N` and `C` (D11, D12), the byte order is the host's (D6), and instances share nothing (D17).
They are arguments of the definitions they concern: `Request.latchedBy`, `storeBytes`, `System`
(notes/assumptions/9). -/
structure Params where
  /-- `LEN_W`: width of a hardware length operand for `N` (D11). -/
  lenW : Nat
  /-- `CAP_W`: width of a hardware capacity operand for `C` (D12). -/
  capW : Nat
  /-- `HOST_WORD_ORDER` (D6): entry `p` says which byte of the word, 0 the least significant,
  the host stores at byte position `p`. -/
  hostWordOrder : List Nat
  /-- `INSTANCES` (D17): the number of block instances. -/
  instances : Nat
  deriving DecidableEq, Repr

/-- What R5 and R36 ask of the parameters: at least one instance, and a byte order that keeps every byte. -/
abbrev Params.wf (p : Params) : Prop :=
  1 ≤ p.instances ∧ p.hostWordOrder.Perm (List.range 8)

end Sys2Proof
end

