-- ==== Sys2Proof/Machine/Ops.lean ====
section
/-! DEFINITION. The shared operations: reading and writing the host's storage, presenting a response, ending a
command with an error, and leaving registers unspecified. -/

namespace Sys2Proof.Machine

/-! ## The host's storage -/

/-- What an element the host has not written reads as (DESIGN CHOICE, notes/assumptions/2). -/
def Memory.unlisted : Word := 0

/-- The canonical form: indices strictly rising, and no entry equal to what an unlisted element reads as. -/
abbrev Memory.wf (m : Memory) : Prop :=
  m.Pairwise (fun a b => a.1 < b.1) ∧ ∀ c ∈ m, c.2 ≠ Memory.unlisted

/-- `MemRead`: one whole 64-bit element, without side effect (R31, R37). -/
def Memory.read : Memory → Nat → Word
  | [], _ => Memory.unlisted
  | (k, v) :: rest, e => if k = e then v else Memory.read rest e

/-- An entry, or none where its value is what an unlisted element reads as. -/
def Memory.cell (e : Nat) (v : Word) : Memory :=
  if v = Memory.unlisted then [] else [(e, v)]

/-- `MemWrite`: replaces one whole 64-bit element (R33, R34, R37), keeping the canonical form. -/
def Memory.write : Memory → Nat → Word → Memory
  | [], e, v => Memory.cell e v
  | (k, x) :: rest, e, v =>
    if e < k then Memory.cell e v ++ (k, x) :: rest
    else if e = k then Memory.cell e v ++ rest
    else (k, x) :: Memory.write rest e v

/-- Consecutive elements from `e` on, in increasing index order (R34). -/
def Memory.writeList (m : Memory) (e : Nat) : List Word → Memory
  | [] => m
  | v :: vs => (m.write e v).writeList (e + 1) vs

/-! ## Ending a command -/

/-- `finish(status, count)`: presents the response (R8, R14). -/
def State.finish (s : State) (status : BitVec 2) (count : BitVec 8) : State :=
  { s with status := status, count := count }

/-- Ends a command with an error (R170 to R175). No trap is taken: nothing is saved, no mode changes, control
goes nowhere; the response carries the status and a count of 0 (R118, R172, D10), and that is all (R174).
Nothing is entered, so there is no return either (R175). -/
def State.raiseError (s : State) (status : BitVec 2) : State := s.finish status 0

/-! ## Unspecified registers -/

/-- The packer's registers outside a PACK: any value (R23, I6; notes/assumptions/11). -/
def State.releasePacker (s : State) : State :=
  { s with
    pk := { sel := Config.freeValue 4 s.draws
            cnt := Config.freeValue 8 (s.draws + 1)
            idx := Config.freeValue 8 (s.draws + 2)
            stop := Config.freeValue 1 (s.draws + 3)
            acc := Config.freeValue 64 (s.draws + 4) }
    draws := s.draws + 5 }

/-- The unpacker's registers outside an UNPACK: any value (R23, I6). -/
def State.releaseUnpacker (s : State) : State :=
  { s with
    up := { usel := Config.freeValue 4 s.draws
            uw := Config.freeValue 6 (s.draws + 1)
            ucnt := Config.freeValue 8 (s.draws + 2)
            mask := Config.freeValue 64 (s.draws + 3)
            sr := Config.freeValue 64 (s.draws + 4)
            i := Config.freeValue 8 (s.draws + 5) }
    draws := s.draws + 6 }

/-- The response registers after reset, until the first command finishes: any value (R190, I5). -/
def State.releaseResponse (s : State) : State :=
  { s with
    status := Config.freeValue 2 s.draws
    count := Config.freeValue 8 (s.draws + 1)
    draws := s.draws + 2 }

/-- Each listed element holds any value, a draw per element (R192, I7). -/
def State.drawElems (s : State) : List Nat → State
  | [] => s
  | e :: es =>
    State.drawElems
      { s with mem := s.mem.write e (Config.freeValue 64 s.draws), draws := s.draws + 1 } es

end Sys2Proof.Machine
end

