-- ==== Sys2Proof/Machine/Operands.lean ====
section
/-! DEFINITION. The operand forms of spec/10_state.md R13 and spec/30_encoding.md R60, as values and as
sets of host elements. -/

namespace Sys2Proof

/-- Whether host element `e` is one of the elements `IN[0..N-1]` (R30). -/
def InBuf.holds : InBuf → Nat → Bool
  | .slice base len, e => decide (base ≤ e ∧ e < base + len)
  | .values _, _ => false

/-- `N`, the number of elements of `IN` (R13). -/
def InBuf.length : InBuf → Nat
  | .slice _ len => len
  | .values vs => vs.length

/-- Whether host element `e` is one of the elements `OUT[0..C-1]` (R30). -/
def OutBuf.holds (o : OutBuf) (e : Nat) : Bool :=
  decide (o.base ≤ e ∧ e < o.base + o.cap)

namespace Machine

/-- The elements `IN[0], …, IN[N-1]` at command start: `MemRead(IN, i)` is entry `i` (R31). A command's reads
all come before its writes (R40), so one look at the storage serves the whole command. -/
def inElems (m : Memory) : InBuf → List Word
  | .slice base len => (List.range' base len).map m.read
  | .values vs => vs

/-- The `WORD` operand, latched at command start (R13). -/
def wordValue (m : Memory) : WordArg → Word
  | .lit w => w
  | .elem e => m.read e

/-- Where element `i` of `OUT` lies in the host's storage (R30). -/
def outElem (out : OutBuf) (i : Nat) : Nat := out.base + i

/-- Where elements 0 to `n - 1` of `OUT` lie, in increasing index order (R34). -/
def outElems (out : OutBuf) (n : Nat) : List Nat := (List.range n).map (outElem out)

end Machine

/-- The request with its `WORD` operand latched: the value that the operand has in this storage (R13, R41). -/
def Request.latchWord (m : Machine.Memory) : Request → Request
  | .command op ops => .command op { ops with word := .lit (Machine.wordValue m ops.word) }
  | .word w out => .word w out

end Sys2Proof
end

