-- ==== Sys2Proof/Machine/Rom.lean ====
section
/-! DEFINITION. The selector table, a 16-entry read-only ROM (spec/40_selector_table.md R70 to R77). -/

namespace Sys2Proof.Machine

/-- One ROM entry: the two output fields of R70. -/
structure RomEntry where
  width : BitVec 6
  count : BitVec 8
  deriving DecidableEq, Repr

/-- The contents of the ROM, the table of R71. -/
def rom : Vector RomEntry 16 :=
  #v[⟨0, 240⟩, ⟨0, 120⟩, ⟨1, 60⟩, ⟨2, 30⟩, ⟨3, 20⟩, ⟨4, 15⟩, ⟨5, 12⟩, ⟨6, 10⟩,
     ⟨7, 8⟩, ⟨8, 7⟩, ⟨10, 6⟩, ⟨12, 5⟩, ⟨15, 4⟩, ⟨20, 3⟩, ⟨30, 2⟩, ⟨60, 1⟩]

/-- `ROM_LOOKUP(s)` (R73). The address is 4 bits, so every one is in range (R75). -/
def romLookup (s : Sel) : RomEntry := rom[s.toNat]'s.isLt

/-- `ROM.width[s]`, 6 bits (R70). -/
def romWidth (s : Sel) : BitVec 6 := (romLookup s).width

/-- `ROM.count[s]`, 8 bits (R70). -/
def romCount (s : Sel) : BitVec 8 := (romLookup s).count

end Sys2Proof.Machine
end

