-- ==== Sys2Proof/Machine/Inspect.lean ====
section
/-! DEFINITION. COUNT_PACKED (spec/44_selector_extractor.md R161) and the reserved command code
(spec/60_exceptions.md R172). -/

namespace Sys2Proof.Machine

/-- COUNT_PACKED (R161): the capacity of the word's selector; no buffer is touched (R35, R162). -/
def execCountPacked (word : WordArg) (s : State) : Host.Outcome State Fault Refusal :=
  .next (s.finish Status.ok (romCount (selx (wordValue s.mem word))))

/-- ILLEGAL_COMMAND, op 0b11 (R172): no operand is read and no buffer written. -/
def execIllegalCommand (s : State) : Host.Outcome State Fault Refusal :=
  .next (s.raiseError Status.illegalCommand)

end Sys2Proof.Machine
end

