-- ==== Sys2Proof/Machine/Layouts.lean ====
section
/-! DEFINITION. The sixteen EncodedWord layouts (spec/30_encoding.md R55): what a word of each means to the
unpacker, by the closed form of spec/43_unpacker.md R145, on which the selector ROM has no say
(notes/assumptions/1). -/

namespace Sys2Proof.Machine

/-- A word's slot values into an output buffer: as many as the buffer takes, from the first on (R142, R145,
R148), the rest of the buffer as it was (R150); the answer is OK and their number (R140). The unpacker's
registers are unspecified afterwards (R23). -/
def deliverSlots (values : List Word) (out : OutBuf) (s : State) : State :=
  (({ s with mem := s.mem.writeList out.base (values.take out.cap) } : State).finish Status.ok
    (BitVec.ofNat 8 (min values.length out.cap))).releaseUnpacker

/-- Slot values, zero-extended to 64 bits (R56, R145). -/
def slotValues {width n : Nat} (slots : Vector (BitVec width) n) : List Word :=
  slots.toList.map (·.setWidth 64)

/-- WORD_SEL0 (R52, R55): 240 slots of no bits, each the value 0; bits 59:0 are ignored (R146). -/
def execWordSel0 (_unused : BitVec 60) (out : OutBuf) (s : State) :
    Host.Outcome State Fault Refusal :=
  .next (deliverSlots (List.replicate 240 0) out s)

/-- WORD_SEL1 (R52, R55): 120 slots of no bits, each the value 0; bits 59:0 are ignored (R146). -/
def execWordSel1 (_unused : BitVec 60) (out : OutBuf) (s : State) :
    Host.Outcome State Fault Refusal :=
  .next (deliverSlots (List.replicate 120 0) out s)

/-- WORD_SEL2 (R55): 60 slots of 1 bit. -/
def execWordSel2 (slots : Vector (BitVec 1) 60) (out : OutBuf) (s : State) :
    Host.Outcome State Fault Refusal :=
  .next (deliverSlots (slotValues slots) out s)

/-- WORD_SEL3 (R55): 30 slots of 2 bits. -/
def execWordSel3 (slots : Vector (BitVec 2) 30) (out : OutBuf) (s : State) :
    Host.Outcome State Fault Refusal :=
  .next (deliverSlots (slotValues slots) out s)

/-- WORD_SEL4 (R55): 20 slots of 3 bits. -/
def execWordSel4 (slots : Vector (BitVec 3) 20) (out : OutBuf) (s : State) :
    Host.Outcome State Fault Refusal :=
  .next (deliverSlots (slotValues slots) out s)

/-- WORD_SEL5 (R55): 15 slots of 4 bits. -/
def execWordSel5 (slots : Vector (BitVec 4) 15) (out : OutBuf) (s : State) :
    Host.Outcome State Fault Refusal :=
  .next (deliverSlots (slotValues slots) out s)

/-- WORD_SEL6 (R55): 12 slots of 5 bits. -/
def execWordSel6 (slots : Vector (BitVec 5) 12) (out : OutBuf) (s : State) :
    Host.Outcome State Fault Refusal :=
  .next (deliverSlots (slotValues slots) out s)

/-- WORD_SEL7 (R55): 10 slots of 6 bits. -/
def execWordSel7 (slots : Vector (BitVec 6) 10) (out : OutBuf) (s : State) :
    Host.Outcome State Fault Refusal :=
  .next (deliverSlots (slotValues slots) out s)

/-- WORD_SEL8 (R55): 8 slots of 7 bits; bits 59:56 are ignored (R53, R146). -/
def execWordSel8 (slots : Vector (BitVec 7) 8)
    (_unused : BitVec 4) (out : OutBuf) (s : State) :
    Host.Outcome State Fault Refusal :=
  .next (deliverSlots (slotValues slots) out s)

/-- WORD_SEL9 (R55): 7 slots of 8 bits; bits 59:56 are ignored (R53, R146). -/
def execWordSel9 (slots : Vector (BitVec 8) 7)
    (_unused : BitVec 4) (out : OutBuf) (s : State) :
    Host.Outcome State Fault Refusal :=
  .next (deliverSlots (slotValues slots) out s)

/-- WORD_SEL10 (R55): 6 slots of 10 bits. -/
def execWordSel10 (slots : Vector (BitVec 10) 6) (out : OutBuf) (s : State) :
    Host.Outcome State Fault Refusal :=
  .next (deliverSlots (slotValues slots) out s)

/-- WORD_SEL11 (R55): 5 slots of 12 bits. -/
def execWordSel11 (slots : Vector (BitVec 12) 5) (out : OutBuf) (s : State) :
    Host.Outcome State Fault Refusal :=
  .next (deliverSlots (slotValues slots) out s)

/-- WORD_SEL12 (R55): 4 slots of 15 bits. -/
def execWordSel12 (slots : Vector (BitVec 15) 4) (out : OutBuf) (s : State) :
    Host.Outcome State Fault Refusal :=
  .next (deliverSlots (slotValues slots) out s)

/-- WORD_SEL13 (R55): 3 slots of 20 bits. -/
def execWordSel13 (slots : Vector (BitVec 20) 3) (out : OutBuf) (s : State) :
    Host.Outcome State Fault Refusal :=
  .next (deliverSlots (slotValues slots) out s)

/-- WORD_SEL14 (R55): 2 slots of 30 bits. -/
def execWordSel14 (slots : Vector (BitVec 30) 2) (out : OutBuf) (s : State) :
    Host.Outcome State Fault Refusal :=
  .next (deliverSlots (slotValues slots) out s)

/-- WORD_SEL15 (R55): one slot of 60 bits. -/
def execWordSel15 (slots : Vector (BitVec 60) 1) (out : OutBuf) (s : State) :
    Host.Outcome State Fault Refusal :=
  .next (deliverSlots (slotValues slots) out s)

end Sys2Proof.Machine
end

