-- ==== Sys2Proof/Machine/Resolver.lean ====
section
/-! DEFINITION. The bit-width/count resolver (spec/41_resolver.md R90 to R95), a combinational sub-block. -/

namespace Sys2Proof.Machine

/-- The resolver's answer (R91). -/
inductive Resolution where
  | sel (s : Sel)
  | tooLarge
  deriving DecidableEq, Repr

/-- The number of significant bits of a value, 0 for 0 (R90). -/
def bitlen (v : Word) : Nat := if v = 0 then 0 else Nat.log2 v.toNat + 1

/-- `RESOLVE(v)`, the pseudocode of R91. -/
def resolve (v : Word) : Resolution :=
  let b := bitlen v
  if b = 0 then .sel 0
  else if b ≤ 8 then .sel (BitVec.ofNat 4 (b + 1))
  else if b ≤ 10 then .sel 10
  else if b ≤ 12 then .sel 11
  else if b ≤ 15 then .sel 12
  else if b ≤ 20 then .sel 13
  else if b ≤ 30 then .sel 14
  else if b ≤ 60 then .sel 15
  else .tooLarge

end Sys2Proof.Machine
end

