-- ==== Sys2Proof/Machine/Pack.lean ====
section
/-! DEFINITION. The greedy packer and PACK (spec/42_packer.md R110 to R126). -/

namespace Sys2Proof.Machine

/-- The packer's registers at the start of every PACK (R111). -/
def PackRegs.start : PackRegs := ⟨0, 0, 0, 0, 0⟩

/-- The larger of two selectors, `max(SEL, r.s)` (R112). -/
def maxSel (a b : Sel) : Sel := if a ≤ b then b else a

/-- How the scan ends, with the registers it leaves (R113). -/
inductive ScanEnd where
  /-- Exhaustion (`STOP = 0`) or early stop (`STOP = 1`). -/
  | closed (r : PackRegs)
  /-- A scanned element is too large. -/
  | tooLarge (r : PackRegs)
  deriving DecidableEq, Repr

/-- The scan (R112), over the elements not yet read: each is read and resolved before the capacity test. -/
def scan : List Word → PackRegs → ScanEnd
  | [], r => .closed r
  | v :: rest, r =>
    let r := { r with idx := r.idx + 1 }
    match resolve v with
    | .tooLarge => .tooLarge r
    | .sel s =>
      let cand := maxSel r.sel s
      if romCount cand ≤ r.cnt then .closed { r with stop := 1 }
      else scan rest { r with sel := cand, cnt := r.cnt + 1 }

/-- At most `fuel` turns of the widening loop of R114. -/
def widenLoop : Nat → PackRegs → PackRegs
  | 0, r => r
  | fuel + 1, r =>
    if r.sel < 15 ∧ r.cnt ≤ romCount (r.sel + 1) then
      widenLoop fuel { r with sel := r.sel + 1 }
    else r

/-- Widening after an early stop, at most 15 steps (R114, R196), by the corrected reading of C1
(notes/assumptions/12); none after exhaustion (R115). -/
def widen (r : PackRegs) : PackRegs := if r.stop = 1 then widenLoop 15 r else r

/-- One step of the bit-shift accumulator, `ACC <- ((ACC << w) | v)[63:0]` (R116). -/
def accStep (w : Nat) (v acc : Word) : Word := (acc <<< w) ||| v

/-- The accumulator over the consumed values, the last one first (R116). -/
def accumulate (xs : List Word) (r : PackRegs) : PackRegs :=
  { r with acc := (xs.take r.cnt.toNat).foldr (accStep (romWidth r.sel).toNat) r.acc }

/-- The packer's registers when the word is assembled; none where the scan failed. -/
def packRegs (xs : List Word) : Option PackRegs :=
  match scan xs PackRegs.start with
  | .closed r => some (accumulate xs (widen r))
  | .tooLarge _ => none

/-- `ACC | (zext_64(SEL) << 60)` (R117). -/
def packedWord (r : PackRegs) : Word := r.acc ||| (r.sel.setWidth 64 <<< 60)

/-- PACK (R110). On success one write of `OUT_WORD`, then OK and `CNT` (R117); on a too-large element only the
response (R118, R171). The packer's registers are unspecified afterwards (R23). A PACK whose `OUT_WORD` is an
element of its `IN` has no meaning (R41). -/
def execPack (input : InBuf) (outWord : Nat) (s : State) : Host.Outcome State Fault Refusal :=
  if input.holds outWord then .refused .overlappingOperands
  else
    match packRegs (inElems s.mem input) with
    | none => .next (s.raiseError Status.valueTooLarge).releasePacker
    | some r =>
      .next (({ s with mem := s.mem.write outWord (packedWord r) } : State).finish
        Status.ok r.cnt).releasePacker

end Sys2Proof.Machine
end

