-- ==== Sys2Proof/Machine/Unpack.lean ====
section
/-! DEFINITION. The word unpacker and UNPACK (spec/43_unpacker.md R140 to R151). -/

namespace Sys2Proof.Machine

/-- The number of slots UNPACK extracts, `min(ROM.count[s], C)`, at the 8 bits of `UCNT` (R17, R142). `C` is
unbounded (D12). -/
def clampCount (s : Sel) (c : Nat) : BitVec 8 := BitVec.ofNat 8 (min (romCount s).toNat c)

/-- `(1 << UW) - 1` (R143). -/
def fieldMask (uw : BitVec 6) : Word := ((1 : Word) <<< uw.toNat) - 1

/-- The unpacker's registers at the start of the extraction loop (R141 to R144). -/
def UnpackRegs.start (word : Word) (c : Nat) : UnpackRegs where
  usel := selx word
  uw := romWidth (selx word)
  ucnt := clampCount (selx word) c
  mask := fieldMask (romWidth (selx word))
  sr := word
  i := 0

/-- At most `fuel` turns of the field-extraction loop of R144, on the registers and the storage. -/
def unpackLoop (out : OutBuf) : Nat → UnpackRegs → Memory → UnpackRegs × Memory
  | 0, r, m => (r, m)
  | fuel + 1, r, m =>
    if r.i < r.ucnt then
      unpackLoop out fuel { r with sr := r.sr >>> r.uw.toNat, i := r.i + 1 }
        (m.write (outElem out r.i.toNat) (r.sr &&& r.mask))
    else (r, m)

/-- The unpacker on a latched word: the loop takes at most 240 turns (R196), and the block then answers OK and
`UCNT` (R140). The unpacker's registers are unspecified afterwards (R23). -/
def unpackWord (word : Word) (out : OutBuf) (s : State) : State :=
  let done := unpackLoop out 240 (UnpackRegs.start word out.cap) s.mem
  (({ s with mem := done.2 } : State).finish Status.ok done.1.ucnt).releaseUnpacker

/-- UNPACK (R140): never fails (R149). -/
def execUnpack (word : WordArg) (out : OutBuf) (s : State) : Host.Outcome State Fault Refusal :=
  .next (unpackWord (wordValue s.mem word) out s)

end Sys2Proof.Machine
end

