-- ==== Sys2Proof/Machine/Dispatch.lean ====
section
/-! DEFINITION. One arm per row of spec/opcode_table.json. -/

namespace Sys2Proof.Machine

def exec (i : Instr) (s : State) : Host.Outcome State Fault Refusal :=
  match i with
  | .wordSel0 unused out => Sys2Proof.Machine.execWordSel0 unused out s
  | .wordSel1 unused out => Sys2Proof.Machine.execWordSel1 unused out s
  | .wordSel2 slots out => Sys2Proof.Machine.execWordSel2 slots out s
  | .wordSel3 slots out => Sys2Proof.Machine.execWordSel3 slots out s
  | .wordSel4 slots out => Sys2Proof.Machine.execWordSel4 slots out s
  | .wordSel5 slots out => Sys2Proof.Machine.execWordSel5 slots out s
  | .wordSel6 slots out => Sys2Proof.Machine.execWordSel6 slots out s
  | .wordSel7 slots out => Sys2Proof.Machine.execWordSel7 slots out s
  | .wordSel8 slots unused out => Sys2Proof.Machine.execWordSel8 slots unused out s
  | .wordSel9 slots unused out => Sys2Proof.Machine.execWordSel9 slots unused out s
  | .wordSel10 slots out => Sys2Proof.Machine.execWordSel10 slots out s
  | .wordSel11 slots out => Sys2Proof.Machine.execWordSel11 slots out s
  | .wordSel12 slots out => Sys2Proof.Machine.execWordSel12 slots out s
  | .wordSel13 slots out => Sys2Proof.Machine.execWordSel13 slots out s
  | .wordSel14 slots out => Sys2Proof.Machine.execWordSel14 slots out s
  | .wordSel15 slots out => Sys2Proof.Machine.execWordSel15 slots out s
  | .pack input outWord => Sys2Proof.Machine.execPack input outWord s
  | .unpack word out => Sys2Proof.Machine.execUnpack word out s
  | .countPacked word => Sys2Proof.Machine.execCountPacked word s
  | .illegalCommand => Sys2Proof.Machine.execIllegalCommand s

end Sys2Proof.Machine
end

