-- ==== Sys2Proof/Machine/Reset.lean ====
section
/-! DEFINITION. The elements a command writes (spec/10_state.md R15), and reset
(spec/70_reset_and_hazards.md R190, R192). -/

namespace Sys2Proof.Machine

/-- The elements that running the instruction in this state writes, in the order it writes them (R15, R33,
R34): `OUT_WORD` of a PACK that succeeds, the first `COUNT` elements of `OUT` of an UNPACK. -/
def storedElems (i : Instr) (s : State) : List Nat :=
  match i with
  | .wordSel0 _ out => outElems out (min 240 out.cap)
  | .wordSel1 _ out => outElems out (min 120 out.cap)
  | .wordSel2 _ out => outElems out (min 60 out.cap)
  | .wordSel3 _ out => outElems out (min 30 out.cap)
  | .wordSel4 _ out => outElems out (min 20 out.cap)
  | .wordSel5 _ out => outElems out (min 15 out.cap)
  | .wordSel6 _ out => outElems out (min 12 out.cap)
  | .wordSel7 _ out => outElems out (min 10 out.cap)
  | .wordSel8 _ _ out => outElems out (min 8 out.cap)
  | .wordSel9 _ _ out => outElems out (min 7 out.cap)
  | .wordSel10 _ out => outElems out (min 6 out.cap)
  | .wordSel11 _ out => outElems out (min 5 out.cap)
  | .wordSel12 _ out => outElems out (min 4 out.cap)
  | .wordSel13 _ out => outElems out (min 3 out.cap)
  | .wordSel14 _ out => outElems out (min 2 out.cap)
  | .wordSel15 _ out => outElems out (min 1 out.cap)
  | .pack input outWord =>
    if input.holds outWord then []
    else if (packRegs (inElems s.mem input)).isSome then [outWord] else []
  | .unpack word out => outElems out (clampCount (selx (wordValue s.mem word)) out.cap).toNat
  | .countPacked _ => []
  | .illegalCommand => []

/-- Reset (R190): the response registers and the command-local registers become unspecified, and nothing else
changes: neither the host's storage nor what the host does next. -/
def State.takeReset (s : State) : State :=
  s.releaseResponse.releasePacker.releaseUnpacker

/-- Reset while the instruction runs (R192): no response; each element the command would have written is
unspecified, every other one as it was. -/
def resetDuring (i : Instr) (s : State) : Host.Outcome State Fault Refusal :=
  match exec i s with
  | .next _ => .next (s.drawElems (storedElems i s)).takeReset
  | .fault f => .fault f
  | .refused r => .refused r

end Sys2Proof.Machine
end

