-- ==== Sys2Proof/Machine/Step.lean ====
section
/-! DEFINITION. One step: the next thing the host does (spec/10_state.md R12, spec/20_memory.md R38, R40). -/

namespace Sys2Proof.Machine

/-- One step. A command is one atomic step (R38, D1); commands run in the order the host issues them (R40).
With nothing issued the block is idle and nothing changes (R10, R176). -/
def step (s : State) : Host.Outcome State Fault Refusal :=
  match s.issued with
  | [] => .next s
  | .issue r :: rest => exec (decode r) { s with issued := rest }
  | .store e v :: rest => .next { s with issued := rest, mem := s.mem.write e v }
  | .reset :: rest => .next ({ s with issued := rest } : State).takeReset
  | .resetDuring r :: rest => resetDuring (decode r) { s with issued := rest }

/-- The block fetches nothing (R19, R43): the host issues. So the bits are issued first, with every operand line
at zero; bits that are no encoding change nothing (notes/assumptions/5). -/
def State.withFetchWord (s : State) (nbits w : Nat) : State :=
  match requestOf nbits w with
  | .ok r => { s with issued := .issue r :: s.issued }
  | .error _ => s

end Sys2Proof.Machine
end

