-- ==== Sys2Proof/Machine/HostBytes.lean ====
section
/-! DEFINITION. How the host stores a word as bytes (spec/20_memory.md R36): the parameter `HOST_WORD_ORDER`,
outside the block. -/

namespace Sys2Proof.Machine

/-- Byte `k` of a word, byte 0 the least significant (R6). -/
def wordByte (w : Word) (k : Nat) : Byte := w.extractLsb' (8 * k) 8

/-- The bytes of a word in the host's order, one per byte position (R36, D6). -/
def storeBytes (order : List Nat) (w : Word) : List Byte := order.map (wordByte w)

/-- The word that bytes stored in the host's order hold. -/
def loadBytes : List Nat → List Byte → Word
  | k :: order, b :: bytes => (b.setWidth 64 <<< (8 * k)) ||| loadBytes order bytes
  | _, _ => 0

end Sys2Proof.Machine
end

