-- ==== Sys2Proof/WellFormed.lean ====
section
/-! DEFINITION. What makes an instruction well formed (spec/20_memory.md R41), and which host elements
its operands let it touch. -/

namespace Sys2Proof

/-- The output buffer of an instruction that has one. -/
def Instr.outBuf? : Instr → Option OutBuf
  | .wordSel0 _ out => some out
  | .wordSel1 _ out => some out
  | .wordSel2 _ out => some out
  | .wordSel3 _ out => some out
  | .wordSel4 _ out => some out
  | .wordSel5 _ out => some out
  | .wordSel6 _ out => some out
  | .wordSel7 _ out => some out
  | .wordSel8 _ _ out => some out
  | .wordSel9 _ _ out => some out
  | .wordSel10 _ out => some out
  | .wordSel11 _ out => some out
  | .wordSel12 _ out => some out
  | .wordSel13 _ out => some out
  | .wordSel14 _ out => some out
  | .wordSel15 _ out => some out
  | .unpack _ out => some out
  | .pack _ _ => none
  | .countPacked _ => none
  | .illegalCommand => none

/-- R41: the `OUT_WORD` slot of a PACK is not one of the elements of its own `IN`. No other instruction can
be ill formed: every 64-bit word is valid (R54), every buffer length and capacity is (R5), and the `WORD`
operand is a value, which aliases nothing (R41). -/
def Instr.wellFormed : Instr → Bool
  | .pack input outWord => !input.holds outWord
  | _ => true

/-- Whether the instruction's operands let it read host element `e` (R13, R15). -/
def Instr.mayRead : Instr → Nat → Bool
  | .pack input _, e => input.holds e
  | .unpack (.elem a) _, e => decide (a = e)
  | .countPacked (.elem a), e => decide (a = e)
  | _, _ => false

/-- Whether the instruction's operands let it write host element `e` (R13, R15). -/
def Instr.mayWrite (i : Instr) (e : Nat) : Bool :=
  match i with
  | .pack _ outWord => decide (outWord = e)
  | _ => i.outBuf?.any (·.holds e)

/-- Whether host element `e` is one of the elements of the `IN` buffer the instruction reads (R13, R41). A `WORD`
variable is no buffer: its value is latched at command start (R41). -/
def Instr.readsBuffer : Instr → Nat → Bool
  | .pack input _, e => input.holds e
  | _, _ => false

/-- Two commands on disjoint buffers, as R41 and R178 ask of commands that run at the same time: neither writes an
element of a buffer the other writes or reads. -/
def Instr.buffersDisjoint (i j : Instr) : Prop :=
  ∀ e, (i.mayWrite e → ¬ j.mayWrite e ∧ ¬ j.readsBuffer e) ∧ (j.mayWrite e → ¬ i.readsBuffer e)

/-- Two commands on disjoint buffers, neither of which writes the host variable that the other takes its `WORD`
from: what makes their order, one whole command after the other, invisible (notes/assumptions/10). -/
def Instr.disjoint (i j : Instr) : Prop :=
  ∀ e, (i.mayWrite e → ¬ j.mayWrite e ∧ ¬ j.mayRead e) ∧ (j.mayWrite e → ¬ i.mayRead e)

/-- The elements the instruction's operands let it write, listed. -/
def Instr.writable : Instr → List Nat
  | .pack _ outWord => [outWord]
  | i => (i.outBuf?.map fun o => List.range' o.base o.cap).getD []

/-- `Instr.buffersDisjoint`, computed. -/
def Instr.apart (i j : Instr) : Bool :=
  i.writable.all (fun e => !j.mayWrite e && !j.readsBuffer e) && j.writable.all (fun e => !i.readsBuffer e)

end Sys2Proof
end

