-- ==== Sys2Proof/Machine/Widths.lean ====
section
/-! DEFINITION. Length and capacity operands of finite width (spec/00_scope.md R5, `LEN_W` and `CAP_W`;
spec/92_eei_decisions.md D11, D12). -/

namespace Sys2Proof

/-- The first elements of `IN`, as many as a length field of `bits` bits can say. -/
def InBuf.saturate (bits : Nat) : InBuf → InBuf
  | .slice base len => .slice base (min len (2 ^ bits - 1))
  | .values vs => .values (vs.take (2 ^ bits - 1))

/-- The first elements of `OUT`, as many as a capacity field of `bits` bits can say. -/
def OutBuf.saturate (bits : Nat) (o : OutBuf) : OutBuf := ⟨o.base, min o.cap (2 ^ bits - 1)⟩

/-- `IN` behind a length operand of `bits` bits. D11 asks of every width that it behave as if `N` were exact, and no
more than `IDX < N` for `IDX ≤ 241` is ever asked: from 8 bits on the operand may pass on the largest length it
can say for a longer one; a narrower one carries `N` exactly (notes/assumptions/9). -/
def InBuf.behind (bits : Nat) (input : InBuf) : InBuf := if 8 ≤ bits then input.saturate bits else input

/-- `OUT` behind a capacity operand of `bits` bits, by the same rule: D12 names 8 bits as enough for the exact
minimum of R142 (notes/assumptions/9). -/
def OutBuf.behind (bits : Nat) (o : OutBuf) : OutBuf := if 8 ≤ bits then o.saturate bits else o

/-- A request as an implementation with length operands of `LEN_W` bits and capacity operands of `CAP_W` bits
takes it in (R5; notes/assumptions/9). Whether `OUT_WORD` lies in `IN` (R41) is a matter of the `N` elements that
the host gave, so a request that is ill formed is so behind operands of every width. -/
def Request.latchedBy (p : Params) (r : Request) : Request :=
  if (decode r).wellFormed then
    match r with
    | .command op ops =>
      .command op { ops with inBuf := ops.inBuf.behind p.lenW, out := ops.out.behind p.capW }
    | .word w out => .word w (out.behind p.capW)
  else r

namespace Machine

/-- What the host does next, as an implementation with these operand widths takes it in. -/
def HostInput.latchedBy (p : Params) : HostInput → HostInput
  | .issue r => .issue (r.latchedBy p)
  | .resetDuring r => .resetDuring (r.latchedBy p)
  | .store e v => .store e v
  | .reset => .reset

/-- One step of a block whose length and capacity operands have these widths (R5). -/
def stepBehind (p : Params) (s : State) : Host.Outcome State Fault Refusal :=
  match s.issued with
  | [] => step s
  | x :: rest => step { s with issued := x.latchedBy p :: rest }

end Machine

end Sys2Proof
end

