-- ==== Sys2Proof/Machine/System.lean ====
section
/-! DEFINITION. Several block instances on one host's storage (spec/60_exceptions.md R178,
spec/20_memory.md R40, R41). -/

namespace Sys2Proof.Machine

/-- The host's storage and the block instances that reach it; nothing else is shared (R178). The parameters are
those the instances are built with (R5). -/
structure System where
  params : Params
  mem : Memory
  blocks : List Block
  deriving DecidableEq, Repr

/-- As many instances as the parameter `INSTANCES` says (R5, D17). -/
def System.complete (sys : System) : Prop := sys.blocks.length = sys.params.instances

/-- One step of instance number `k`. Which instance steps next is the argument: any interleaving of steps is a
list of instance numbers (R178). -/
def System.stepAt (k : Nat) (sys : System) : Host.Outcome System Fault Refusal :=
  match sys.blocks[k]? with
  | none => .refused .noSuchInstance
  | some b =>
    match stepBehind sys.params { toBlock := b, mem := sys.mem } with
    | .next t => .next { sys with mem := t.mem, blocks := sys.blocks.set k t.toBlock }
    | .fault f => .fault f
    | .refused r => .refused r

/-- The steps of the listed instances, in that order. -/
def System.run : List Nat → System → Host.Outcome System Fault Refusal
  | [], sys => .next sys
  | k :: ks, sys =>
    match sys.stepAt k with
    | .next sys' => System.run ks sys'
    | .fault f => .fault f
    | .refused r => .refused r

/-- The command at the head of the host's list, if a command it is. A command that reset interrupts (R192) counts:
it was running. The spec does not say whether R41 counts it; that it does is the model's choice
(DESIGN CHOICE, notes/assumptions/10). -/
def Block.nextInstr? (b : Block) : Option Instr :=
  match b.issued with
  | .issue r :: _ => some (decode r)
  | .resetDuring r :: _ => some (decode r)
  | _ => none

/-- The block with the `WORD` operand of its next command latched from this storage. -/
def Block.latchWord (m : Memory) (b : Block) : Block :=
  match b.issued with
  | .issue r :: rest => { b with issued := .issue (r.latchWord m) :: rest }
  | .resetDuring r :: rest => { b with issued := .resetDuring (r.latchWord m) :: rest }
  | _ => b

/-- Instance number `k` starts its next command: it latches the `WORD` operand (R13). -/
def System.startAt (sys : System) (k : Nat) : System :=
  { sys with blocks := sys.blocks.modify k (Block.latchWord sys.mem) }

/-- Which of the listed instances take part when their next commands run at the same time. Each is listed once, for
one instance performs one command at a time (R178): naming it twice names it once. An instance whose next input
is no command takes no part. Both readings of the list are the model's choice (DESIGN CHOICE,
notes/assumptions/10). -/
def System.running (sys : System) (ks : List Nat) : List Nat :=
  ks.dedup.filter fun k => sys.blocks[k]?.all fun b => b.nextInstr?.isSome

/-- The listed instances' next commands, running at the same time (R178). Their buffers must be pairwise disjoint
(R41), all `C` elements of an `OUT` and all `N` of an `IN` as the host gave them, whatever the operand widths; where
they are not the model refuses (I9). Where they are, the commands start together, each latching
its `WORD`, and every interleaving gives the same result, so they are run in the order listed
(notes/assumptions/10). -/
def System.together (ks : List Nat) (sys : System) : Host.Outcome System Fault Refusal :=
  if ((sys.running ks).filterMap fun k => sys.blocks[k]?.bind Block.nextInstr?).Pairwise
      (fun i j => i.apart j = true) then
    System.run (sys.running ks) ((sys.running ks).foldl System.startAt sys)
  else .refused .overlappingCommands

end Sys2Proof.Machine
end

