-- ==== Sys2Proof/Safety.lean ====
section
/-! DEFINITION. What claims about the machine are stated in: the invariant of a state, safe queues, and the
relations between a state before and after a command. -/

namespace Sys2Proof

open Machine

/-- What a host input asks of the block is well formed (R41, R195 item 4). -/
def Machine.HostInput.wellFormed : HostInput → Bool
  | .issue r => (decode r).wellFormed
  | .resetDuring r => (decode r).wellFormed
  | .store _ _ => true
  | .reset => true

/-- The host's storage is in canonical form, and everything the host does next is well formed. -/
def Machine.State.Inv (s : State) : Prop :=
  s.mem.wf ∧ ∀ x ∈ s.issued, x.wellFormed = true

/-- One selector holds all the values: each fits its width, and there are no more of them than its capacity
(spec/42_packer.md R123, R120). -/
def Machine.oneSelectorHolds (vs : List Word) : Prop :=
  ∃ s : Sel, vs.length ≤ (romCount s).toNat ∧ ∀ v ∈ vs, v.toNat < 2 ^ (romWidth s).toNat

/-- Element `f` of the input is scanned and too large: every element before it was consumed, which is to say that
one selector holds them (R118, R123). -/
def Machine.failsAt (xs : List Word) (f : Nat) : Prop :=
  (∃ v, xs[f]? = some v ∧ 2 ^ 60 ≤ v.toNat) ∧ oneSelectorHolds (xs.take f)

/-- The response of a command that completes: `STATUS` and `COUNT` (R14). -/
def Machine.response : Host.Outcome State Fault Refusal → Option (BitVec 2 × BitVec 8)
  | .next t => some (t.status, t.count)
  | .fault _ => none
  | .refused _ => none

/-- Everything but the response registers, the packer's registers, the draw counter and the host's storage is
the same: the frame of PACK. -/
def Machine.State.packFrame (s t : State) : Prop :=
  t.issued = s.issued ∧ t.up = s.up

/-- Everything but the response registers, the unpacker's registers, the draw counter and the host's storage is
the same: the frame of UNPACK and of the EncodedWord layouts. -/
def Machine.State.unpackFrame (s t : State) : Prop :=
  t.issued = s.issued ∧ t.pk = s.pk

/-- `t` is what the unpacker leaves of `s` when it delivers `values` into `out`: the response, the delivered
elements (R145, R148), every other element (R150) and the rest of the block. -/
def Machine.State.delivered (s t : State) (values : List Word) (out : OutBuf) : Prop :=
  t.status = Status.ok ∧ t.count.toNat = min values.length out.cap ∧
  (∀ k (h : k < values.length), k < out.cap → t.mem.read (outElem out k) = values[k]) ∧
  (∀ e, e ∉ outElems out (min values.length out.cap) → t.mem.read e = s.mem.read e) ∧
  s.unpackFrame t

/-- In every state with the storage in canonical form, the instruction completes and delivers `values`. -/
def Machine.completesDelivering (i : Instr) (values : List Word) (out : OutBuf) : Prop :=
  ∀ s : State, s.mem.wf → ∃ t, exec i s = .next t ∧ s.delivered t values out

end Sys2Proof
end

