-- ==== Sys2Proof/Certificates/Slice0/Obligations.lean ====
section
/-! DEFINITION. What the model is claimed to do, statement by statement. -/

open Sys2Proof Sys2Proof.Machine

/-! ## Reset, the step and the invariant -/

/-- R190, R193: after reset the block is idle, and the reset state meets the invariant. -/
def Obligations.ResetIsIdleAndMeetsInvariant : Prop :=
  State.reset.issued = [] ∧ step State.reset = .next State.reset ∧ State.reset.Inv

/-- R174, R196, R41: from every state that meets the invariant (canonical storage, well-formed requests) the
block takes a step, and the next state meets it. No command waits, stops or is refused. -/
def Obligations.EveryStepCompletesAndKeepsInvariant : Prop :=
  ∀ s : State, s.Inv → ∃ t, step s = .next t ∧ t.Inv

/-- R12: a step on an issued request runs the instruction the request decodes to, with the request taken off the
host's list. -/
def Obligations.StepRunsTheDecodedRequest : Prop :=
  ∀ (s : State) (r : Request) (rest : List HostInput), s.issued = .issue r :: rest →
    step s = exec (decode r) { s with issued := rest }

/-- With nothing issued, a step changes nothing: the model's form of R176's idle block (notes/assumptions/5). What the
host stores between commands is what a later read of that element gives, and no other element changes: the
host's store as an input is the model's (notes/assumptions/6). That the command-local registers keep their
values is the model's too (R23 leaves them unspecified, notes/assumptions/11). -/
def Obligations.IdleAndHostStoreSteps : Prop :=
  (∀ s : State, s.issued = [] → step s = .next s) ∧
  ∀ (s : State) (e : Nat) (v : Word) (rest : List HostInput), s.mem.wf → s.issued = .store e v :: rest →
    ∃ t, step s = .next t ∧ t.issued = rest ∧ t.mem.read e = v ∧
      (∀ a, a ≠ e → t.mem.read a = s.mem.read a) ∧
      t.status = s.status ∧ t.count = s.count ∧ t.pk = s.pk ∧ t.up = s.up

/-- R190: reset leaves the host's storage as it was and makes the response registers unspecified (each is some
free value; which draw it is is the model's choice, notes/assumptions/4). -/
def Obligations.ResetTouchesOnlyTheBlock : Prop :=
  ∀ (s : State) (rest : List HostInput), s.issued = .reset :: rest →
    ∃ t, step s = .next t ∧ t.issued = rest ∧ t.mem = s.mem ∧
      (∃ n, t.status = Config.freeValue 2 n) ∧ (∃ n, t.count = Config.freeValue 8 n)

/-- R192: reset during a command leaves every element the command would have written unspecified, a draw each,
every other element as it was, and no response. -/
def Obligations.ResetDuringACommandDrawsItsOutputs : Prop :=
  ∀ (s : State) (r : Request) (rest : List HostInput), s.mem.wf → (decode r).wellFormed = true →
    s.issued = .resetDuring r :: rest →
    ∃ t, step s = .next t ∧ t.issued = rest ∧
      (∀ e, e ∉ storedElems (decode r) s → t.mem.read e = s.mem.read e) ∧
      (∀ e ∈ storedElems (decode r) s, ∃ n, t.mem.read e = Config.freeValue 64 n) ∧
      (∃ n, t.status = Config.freeValue 2 n) ∧ (∃ n, t.count = Config.freeValue 8 n)

/-! ## The ROM and the resolver -/

/-- R71: the contents of the ROM. -/
def Obligations.RomHoldsTheTable : Prop :=
  (List.range 16).map (fun n => ((romWidth (BitVec.ofNat 4 n)).toNat, (romCount (BitVec.ofNat 4 n)).toNat)) =
    [(0, 240), (0, 120), (1, 60), (2, 30), (3, 20), (4, 15), (5, 12), (6, 10),
     (7, 8), (8, 7), (10, 6), (12, 5), (15, 4), (20, 3), (30, 2), (60, 1)]

/-- R74, items 1 to 5. -/
def Obligations.RomMeetsItsInvariants : Prop :=
  (∀ s : Sel, (romWidth s).toNat * (romCount s).toNat =
    if s = 0 ∨ s = 1 then 0 else if s = 8 ∨ s = 9 then 56 else 60) ∧
  (∀ s t : Sel, s ≤ t → (romWidth s).toNat ≤ (romWidth t).toNat) ∧
  (∀ s t : Sel, 1 ≤ s → s < t → (romWidth s).toNat < (romWidth t).toNat) ∧
  (∀ s t : Sel, s < t → (romCount t).toNat < (romCount s).toNat) ∧
  (∀ s : Sel, 1 ≤ (romCount s).toNat) ∧ (romCount 15).toNat = 1 ∧ (romWidth 15).toNat = 60

/-- R90: `bitlen` counts significant bits: 64 less the leading zeros, and the least `b` with `v < 2^b`. -/
def Obligations.BitlenCountsSignificantBits : Prop :=
  ∀ v : Word, bitlen v = 64 - v.clz.toNat ∧ v.toNat < 2 ^ bitlen v ∧ bitlen v ≤ 64 ∧
    ∀ b, v.toNat < 2 ^ b → bitlen v ≤ b

/-- R91: the resolver's mapping, row by row of its table, over the values of each row. -/
def Obligations.ResolverFollowsItsTable : Prop :=
  ∀ v : Word,
    (v = 0 → resolve v = .sel 0) ∧
    (∀ b, 1 ≤ b → b ≤ 8 → 2 ^ (b - 1) ≤ v.toNat → v.toNat < 2 ^ b →
      resolve v = .sel (BitVec.ofNat 4 (b + 1))) ∧
    (2 ^ 8 ≤ v.toNat → v.toNat < 2 ^ 10 → resolve v = .sel 10) ∧
    (2 ^ 10 ≤ v.toNat → v.toNat < 2 ^ 12 → resolve v = .sel 11) ∧
    (2 ^ 12 ≤ v.toNat → v.toNat < 2 ^ 15 → resolve v = .sel 12) ∧
    (2 ^ 15 ≤ v.toNat → v.toNat < 2 ^ 20 → resolve v = .sel 13) ∧
    (2 ^ 20 ≤ v.toNat → v.toNat < 2 ^ 30 → resolve v = .sel 14) ∧
    (2 ^ 30 ≤ v.toNat → v.toNat < 2 ^ 60 → resolve v = .sel 15) ∧
    (2 ^ 60 ≤ v.toNat → resolve v = .tooLarge)

/-- R92, R93: the resolver fails exactly from 2^60 on; below, it answers the smallest selector whose width holds
the value, which is never selector 1. -/
def Obligations.ResolverAnswersTheSmallestSelector : Prop :=
  ∀ v : Word,
    (resolve v = .tooLarge ↔ 2 ^ 60 ≤ v.toNat) ∧ (resolve v = .tooLarge ↔ 60 < bitlen v) ∧
    (v.toNat < 2 ^ 60 → ∃ s, resolve v = .sel s ∧ v.toNat < 2 ^ (romWidth s).toNat ∧
      ∀ t, v.toNat < 2 ^ (romWidth t).toNat → s ≤ t) ∧
    resolve v ≠ .sel 1

/-! ## PACK -/

/-- R171, R118: PACK fails at the element being scanned when that element is 2^60 or more: VALUE_TOO_LARGE and a
count of 0, no element of the host's storage changed, nothing recorded. That the unpacker's registers keep their
values (in `packFrame`) is the model's choice (R23 leaves them unspecified, notes/assumptions/11). -/
def Obligations.PackFailsAtAScannedElement : Prop :=
  ∀ (input : InBuf) (outWord : Nat) (s : State) (f : Nat), input.holds outWord = false →
    failsAt (inElems s.mem input) f →
    ∃ t, exec (.pack input outWord) s = .next t ∧ t.status = 0b01 ∧ t.count = 0 ∧ t.mem = s.mem ∧
      s.packFrame t

/-- R119, R117: PACK where no scanned element is too large completes. The word is the selector over the sum of
the consumed values, each shifted to its slot; the shifted values do not overlap; slot `j` reads as input element
`j`; no other element of the storage changes. That the unpacker's registers keep their values (in `packFrame`) is the
model's choice: R23 leaves them unspecified (notes/assumptions/11). -/
def Obligations.PackWordHasItsClosedForm : Prop :=
  ∀ (input : InBuf) (outWord : Nat) (s : State), s.mem.wf → input.holds outWord = false →
    (∀ f, ¬ failsAt (inElems s.mem input) f) →
    ∃ t sel, exec (.pack input outWord) s = .next t ∧ t.status = 0b00 ∧ selx (t.mem.read outWord) = sel ∧
      t.count.toNat ≤ (inElems s.mem input).length ∧ t.count.toNat ≤ (romCount sel).toNat ∧
      (t.mem.read outWord).toNat = sel.toNat * 2 ^ 60 +
        ∑ j ∈ Finset.range t.count.toNat,
          ((inElems s.mem input).getD j 0).toNat * 2 ^ (j * (romWidth sel).toNat) ∧
      (∀ j k, j < t.count.toNat → k < t.count.toNat → j ≠ k →
        ((inElems s.mem input).getD j 0 <<< (j * (romWidth sel).toNat)) &&&
          ((inElems s.mem input).getD k 0 <<< (k * (romWidth sel).toNat)) = 0) ∧
      (∀ j, j < t.count.toNat →
        ((t.mem.read outWord).extractLsb' (j * (romWidth sel).toNat) (romWidth sel).toNat).setWidth 64 =
          (inElems s.mem input).getD j 0) ∧
      (∀ e, e ≠ outWord → t.mem.read e = s.mem.read e) ∧ s.packFrame t

/-- R120, items 1 to 5: what holds when the word is assembled. -/
def Obligations.PackKeepsItsAssemblyInvariants : Prop :=
  ∀ (xs : List Word) (r : PackRegs), packRegs xs = some r →
    r.cnt.toNat ≤ (romCount r.sel).toNat ∧
    (∀ j, j < r.cnt.toNat → (xs.getD j 0).toNat < 2 ^ (romWidth r.sel).toNat) ∧
    r.cnt.toNat * (romWidth r.sel).toNat ≤ 60 ∧
    r.acc.toNat < 2 ^ (r.cnt.toNat * (romWidth r.sel).toNat) ∧
    selx (packedWord r) = r.sel ∧
    ∀ b, r.cnt.toNat * (romWidth r.sel).toNat ≤ b → b < 60 → (packedWord r).getLsbD b = false

/-- R123: PACK consumes the longest prefix of its input that one selector can hold. -/
def Obligations.PackConsumesTheLongestHeldPrefix : Prop :=
  ∀ (input : InBuf) (outWord : Nat) (s : State), input.holds outWord = false →
    (∀ f, ¬ failsAt (inElems s.mem input) f) →
    ∃ t, exec (.pack input outWord) s = .next t ∧ t.status = 0b00 ∧
      t.count.toNat ≤ (inElems s.mem input).length ∧
      oneSelectorHolds ((inElems s.mem input).take t.count.toNat) ∧
      ∀ n, n ≤ (inElems s.mem input).length → oneSelectorHolds ((inElems s.mem input).take n) →
        n ≤ t.count.toNat

/-- R32, R123, R173 item 4: elements after the one that ends the scan have no effect. Two inputs that agree up to
an element no selector holds together with those before it give the same outcome. -/
def Obligations.PackIgnoresElementsItDoesNotScan : Prop :=
  ∀ (a b : InBuf) (outWord : Nat) (s : State) (pre : List Word) (v : Word) (rest rest' : List Word),
    a.holds outWord = false → b.holds outWord = false →
    inElems s.mem a = pre ++ v :: rest → inElems s.mem b = pre ++ v :: rest' →
    ¬ oneSelectorHolds (pre ++ [v]) →
    exec (.pack a outWord) s = exec (.pack b outWord) s

/-- R114, R115: after an early stop the selector is the largest whose capacity is at least the count; after
exhaustion it is the smallest whose width holds every value. -/
def Obligations.PackChoosesItsSelector : Prop :=
  ∀ (input : InBuf) (outWord : Nat) (s : State), s.mem.wf → input.holds outWord = false →
    (∀ f, ¬ failsAt (inElems s.mem input) f) →
    ∃ t, exec (.pack input outWord) s = .next t ∧
      (t.count.toNat < (inElems s.mem input).length →
        t.count.toNat ≤ (romCount (selx (t.mem.read outWord))).toNat ∧
        ∀ u, selx (t.mem.read outWord) < u → (romCount u).toNat < t.count.toNat) ∧
      (t.count.toNat = (inElems s.mem input).length →
        ∀ u, selx (t.mem.read outWord) ≤ u ↔
          ∀ v ∈ inElems s.mem input, v.toNat < 2 ^ (romWidth u).toNat)

/-- R121: a PACK of a non-empty input that finishes with OK consumes at least one element. -/
def Obligations.PackMakesProgress : Prop :=
  ∀ (input : InBuf) (outWord : Nat) (s t : State), 1 ≤ (inElems s.mem input).length →
    exec (.pack input outWord) s = .next t → t.status = 0b00 → 1 ≤ t.count.toNat

/-- R122: a PACK of an empty input writes the word 0 and finishes with OK and 0; the word has capacity 240. That the
unpacker's registers keep their values (in `packFrame`) is the model's choice (R23, notes/assumptions/11). -/
def Obligations.PackOfEmptyInputWritesZero : Prop :=
  ∀ (input : InBuf) (outWord : Nat) (s : State), s.mem.wf → inElems s.mem input = [] →
    ∃ t u, exec (.pack input outWord) s = .next t ∧ t.status = 0b00 ∧ t.count = 0 ∧
      t.mem.read outWord = 0 ∧ (∀ e, e ≠ outWord → t.mem.read e = s.mem.read e) ∧ s.packFrame t ∧
      exec (.countPacked (.elem outWord)) t = .next u ∧ u.status = 0b00 ∧ u.count = 240

/-- R124, R126: how many elements the scan reads, and that its registers stay in their ranges. -/
def Obligations.PackScanReadsWhatItNeeds : Prop :=
  ∀ xs : List Word,
    (∀ r, scan xs PackRegs.start = .closed r → r.cnt.toNat ≤ 240 ∧ r.idx.toNat ≤ 241 ∧
      (r.stop = 0 ∧ r.cnt.toNat = xs.length ∧ r.idx.toNat = xs.length ∨
       r.stop = 1 ∧ r.idx.toNat = r.cnt.toNat + 1 ∧ r.idx.toNat ≤ xs.length)) ∧
    (∀ r, scan xs PackRegs.start = .tooLarge r → r.cnt.toNat ≤ 240 ∧
      failsAt xs r.cnt.toNat ∧ r.idx.toNat = r.cnt.toNat + 1)

/-- R33: PACK replaces the slot exactly when it finishes with OK, leaves the storage alone when it fails, and
nothing it answers or writes depends on the slot's old value. -/
def Obligations.PackReplacesItsSlotUnread : Prop :=
  ∀ (input : InBuf) (outWord : Nat) (s : State) (old : Word), s.mem.wf → input.holds outWord = false →
    ∃ t t', exec (.pack input outWord) s = .next t ∧
      exec (.pack input outWord) { s with mem := s.mem.write outWord old } = .next t' ∧
      t'.status = t.status ∧ t'.count = t.count ∧
      (t.status = 0b00 ∧ t'.mem = t.mem ∧ (∃ v, t.mem = s.mem.write outWord v ∧ t.mem.read outWord = v) ∨
       t.status = 0b01 ∧ t.mem = s.mem ∧ t'.mem = s.mem.write outWord old)

/-- R41: a PACK whose slot is one of the elements of its own input is refused by name. -/
def Obligations.PackRefusesOverlappingOperands : Prop :=
  ∀ (base len outWord : Nat) (s : State),
    exec (.pack (.slice base len) outWord) s = .refused .overlappingOperands ↔
      base ≤ outWord ∧ outWord < base + len

/-- R173: the rule's two examples. -/
def Obligations.ErrorPriorityExamples : Prop :=
  response (exec (.pack (.values (List.replicate 240 0 ++ [0x1000000000000000])) 0) State.reset) =
    some (0b01, 0) ∧
  response (exec (.pack (.values (List.replicate 240 0 ++ [5, 0x1000000000000000])) 0) State.reset) =
    some (0b00, 240)

/-! ## UNPACK and the round trip -/

/-- R142, R145, R148, R149, R150: UNPACK completes on every word and every capacity; the first `COUNT` elements
of the buffer become the word's fields, zero-extended, and every other element keeps its value. That the packer's
registers keep theirs (in `unpackFrame`) is the model's choice (R23, notes/assumptions/11). -/
def Obligations.UnpackDeliversTheFields : Prop :=
  ∀ (word : WordArg) (out : OutBuf) (s : State), s.mem.wf →
    ∃ t, exec (.unpack word out) s = .next t ∧ t.status = 0b00 ∧
      t.count.toNat = min (romCount (selx (wordValue s.mem word))).toNat out.cap ∧
      (∀ i, i < t.count.toNat → t.mem.read (outElem out i) =
        ((wordValue s.mem word).extractLsb' (i * (romWidth (selx (wordValue s.mem word))).toNat)
          (romWidth (selx (wordValue s.mem word))).toNat).setWidth 64) ∧
      (∀ e, e ∉ outElems out t.count.toNat → t.mem.read e = s.mem.read e) ∧ s.unpackFrame t

/-- R145, R146: UNPACK depends on the selector, the capacity and the bits of the slots it extracts, and on no
other bit of the word. -/
def Obligations.UnpackIgnoresBitsOutsideItsSlots : Prop :=
  ∀ (a b : WordArg) (out : OutBuf) (s : State),
    selx (wordValue s.mem a) = selx (wordValue s.mem b) →
    (∀ k, k < min (romCount (selx (wordValue s.mem a))).toNat out.cap *
        (romWidth (selx (wordValue s.mem a))).toNat →
      (wordValue s.mem a).getLsbD k = (wordValue s.mem b).getLsbD k) →
    exec (.unpack a out) s = exec (.unpack b out) s

/-- R145: the layout row of a word, read directly slot by slot, does exactly what UNPACK's shifting loop does with
that word. That a row runs at all is the model's choice (notes/assumptions/1). -/
def Obligations.UnpackLoopMatchesTheLayoutRow : Prop :=
  ∀ (w : Word) (out : OutBuf) (s : State), exec (decodeWord w out) s = exec (.unpack (.lit w) out) s

/-- R151: a word PACK wrote with OK and count `c` unpacks to the packed values, as many of them as the buffer
takes. -/
def Obligations.PackThenUnpackGivesBackTheInput : Prop :=
  ∀ (input : InBuf) (outWord : Nat) (out : OutBuf) (s t : State), s.mem.wf →
    exec (.pack input outWord) s = .next t → t.status = 0b00 →
    ∃ u, exec (.unpack (.elem outWord) out) t = .next u ∧ u.status = 0b00 ∧
      (t.count.toNat ≤ out.cap → t.count.toNat ≤ u.count.toNat) ∧
      (out.cap < t.count.toNat → u.count.toNat = out.cap) ∧
      ∀ j, j < t.count.toNat → j < out.cap →
        u.mem.read (outElem out j) = (inElems s.mem input).getD j 0

/-- R147: the slots a loose-fit word has beyond the packed values unpack to 0. -/
def Obligations.LooseFitUnpacksToZeros : Prop :=
  ∀ (input : InBuf) (outWord : Nat) (out : OutBuf) (s t : State), s.mem.wf →
    exec (.pack input outWord) s = .next t → t.status = 0b00 →
    ∃ u, exec (.unpack (.elem outWord) out) t = .next u ∧
      ∀ j, t.count.toNat ≤ j → j < u.count.toNat → u.mem.read (outElem out j) = 0

/-! ## COUNT_PACKED and the reserved code -/

/-- R161, R162: COUNT_PACKED answers OK and the capacity of the word's selector, 1 to 240, and changes nothing
else; words with the same bits 63:60 give the same answer. That the command-local registers are among what keeps its
value is the model's choice (R23 leaves them unspecified, notes/assumptions/11). -/
def Obligations.CountPackedAnswersTheCapacity : Prop :=
  ∀ (word : WordArg) (s : State),
    exec (.countPacked word) s =
      .next { s with status := 0b00, count := romCount (selx (wordValue s.mem word)) } ∧
    1 ≤ (romCount (selx (wordValue s.mem word))).toNat ∧
    (romCount (selx (wordValue s.mem word))).toNat ≤ 240

/-- R163: the capacity COUNT_PACKED answers for a word PACK wrote is at least PACK's count, and equals it where
PACK stopped early with a count that the table has. -/
def Obligations.CapacityBoundsThePackedCount : Prop :=
  ∀ (input : InBuf) (outWord : Nat) (s t : State), s.mem.wf →
    exec (.pack input outWord) s = .next t → t.status = 0b00 →
    ∃ u, exec (.countPacked (.elem outWord)) t = .next u ∧ t.count.toNat ≤ u.count.toNat ∧
      (t.count.toNat < (inElems s.mem input).length → (∃ v, romCount v = t.count) → u.count = t.count)

/-- R172: the reserved code answers ILLEGAL_COMMAND and 0, whatever stands on the operand lines, and changes
nothing else. That the command-local registers are among what keeps its value is the model's choice (R23 leaves
them unspecified, notes/assumptions/11). -/
def Obligations.IllegalCommandOnlyAnswers : Prop :=
  (∀ ops, decode (.command 0b11 ops) = .illegalCommand) ∧
  ∀ s : State, exec .illegalCommand s = .next { s with status := 0b10, count := 0 }

/-! ## The layout rows -/

/-- R52, R55: the zero-width rows deliver zeros, whatever the payload bits (that a row runs is notes/assumptions/1; that
the packer's registers keep their values, in `delivered`, is notes/assumptions/11). -/
def Obligations.ZeroWidthRowsDeliverZeros : Prop :=
  (∀ unused out, completesDelivering (.wordSel0 unused out) (List.replicate 240 0) out) ∧
  (∀ unused out, completesDelivering (.wordSel1 unused out) (List.replicate 120 0) out)

/-- R53, R55: the rows of selectors 8 and 9 deliver their slots, whatever the unused bits (that a row runs is
notes/assumptions/1; that the packer's registers keep their values, in `delivered`, is notes/assumptions/11). -/
def Obligations.RowsWithUnusedBitsDeliverTheirSlots : Prop :=
  (∀ slots unused out, completesDelivering (.wordSel8 slots unused out) (slotValues slots) out) ∧
  (∀ slots unused out, completesDelivering (.wordSel9 slots unused out) (slotValues slots) out)

/-- R55, R56: every other row delivers its slots, zero-extended, slot 0 first (that a row runs is
notes/assumptions/1; that the packer's registers keep their values, in `delivered`, is notes/assumptions/11). -/
def Obligations.FullRowsDeliverTheirSlots : Prop :=
  (∀ slots out, completesDelivering (.wordSel2 slots out) (slotValues slots) out) ∧
  (∀ slots out, completesDelivering (.wordSel3 slots out) (slotValues slots) out) ∧
  (∀ slots out, completesDelivering (.wordSel4 slots out) (slotValues slots) out) ∧
  (∀ slots out, completesDelivering (.wordSel5 slots out) (slotValues slots) out) ∧
  (∀ slots out, completesDelivering (.wordSel6 slots out) (slotValues slots) out) ∧
  (∀ slots out, completesDelivering (.wordSel7 slots out) (slotValues slots) out) ∧
  (∀ slots out, completesDelivering (.wordSel10 slots out) (slotValues slots) out) ∧
  (∀ slots out, completesDelivering (.wordSel11 slots out) (slotValues slots) out) ∧
  (∀ slots out, completesDelivering (.wordSel12 slots out) (slotValues slots) out) ∧
  (∀ slots out, completesDelivering (.wordSel13 slots out) (slotValues slots) out) ∧
  (∀ slots out, completesDelivering (.wordSel14 slots out) (slotValues slots) out) ∧
  (∀ slots out, completesDelivering (.wordSel15 slots out) (slotValues slots) out)

/-! ## Encodings -/

/-- R55, R57: the decoder inverts the encoder on every instruction, with every operand. -/
def Obligations.DecodeInvertsEncode : Prop :=
  ∀ i : Instr, decode (encode i) = i

/-- R54: every 64-bit word is the encoding of the row it decodes to; no bit of it is dropped. -/
def Obligations.EncodeInvertsDecodeOnWords : Prop :=
  ∀ (w : Word) (out : OutBuf), encode (decode (.word w out)) = .word w out

/-- R55: bits 63:60 alone decide the row, by the match and mask of the table. -/
def Obligations.SelectorDecidesTheRow : Prop :=
  ∀ (w : Word) (out : OutBuf) (s : Sel),
    (decode (.word w out)).rowBits = .layout s ↔
      w &&& (0xF000000000000000 : Word) = (s.setWidth 64 : Word) <<< (60 : Nat)

/-- R57: the four command codes, each with its own operands of the command port. -/
def Obligations.CommandCodesDecode : Prop :=
  ∀ ops : Operands,
    decode (.command 0b00 ops) = .pack ops.inBuf ops.outWord ∧
    decode (.command 0b01 ops) = .unpack ops.word ops.out ∧
    decode (.command 0b10 ops) = .countPacked ops.word ∧
    decode (.command 0b11 ops) = .illegalCommand

/-- Words written out from R55's layouts, and the four codes of R57 as the opcode table numbers them; 32 bits
are no encoding (notes/assumptions/5). -/
def Obligations.TableWordsDecode : Prop :=
  decodeTableWord 64 0x900000000000FF01 = some (.wordSel9 #v[1, 255, 0, 0, 0, 0, 0] 0 ⟨0, 0⟩) ∧
  decodeTableWord 64 0x8F00000020E0E602 = some (.wordSel8 #v[2, 76, 3, 7, 2, 0, 0, 0] 15 ⟨0, 0⟩) ∧
  decodeTableWord 64 0xC123456789ABCDEF = some (.wordSel12 #v[19951, 4951, 5534, 2330] ⟨0, 0⟩) ∧
  decodeTableWord 64 0x1FFFFFFFFFFFFFFF = some (.wordSel1 0xFFFFFFFFFFFFFFF ⟨0, 0⟩) ∧
  decodeTableWord 8 0 = some (.pack (.slice 0 0) 0) ∧
  decodeTableWord 8 1 = some (.unpack (.lit 0) ⟨0, 0⟩) ∧
  decodeTableWord 8 2 = some (.countPacked (.lit 0)) ∧
  decodeTableWord 8 3 = some .illegalCommand ∧
  decodeTableWord 32 0 = none

/-! ## Rules over all commands -/

/-- R58, R170: which status a command can answer with, and with what count: VALUE_TOO_LARGE only from a PACK that
scanned a too-large element, ILLEGAL_COMMAND only from the reserved code, OK otherwise. -/
def Obligations.StatusesAndTheirCauses : Prop :=
  ∀ (i : Instr) (s t : State), exec i s = .next t →
    (t.status = 0b00 ∧ t.count.toNat ≤ 240 ∧ i ≠ .illegalCommand) ∨
    (t.status = 0b01 ∧ t.count = 0 ∧
      ∃ input outWord f, i = .pack input outWord ∧ failsAt (inElems s.mem input) f) ∨
    (t.status = 0b10 ∧ t.count = 0 ∧ i = .illegalCommand)

/-- R174, R38: a command that does not finish with OK leaves the host's storage and the host's list as they
were; its count is 0 (R118, R172). That the unpacker's registers keep their values is the model's choice (R23
leaves them unspecified, notes/assumptions/11). -/
def Obligations.ErrorsArePrecise : Prop :=
  ∀ (i : Instr) (s t : State), exec i s = .next t → t.status ≠ 0b00 →
    t.mem = s.mem ∧ t.issued = s.issued ∧ t.up = s.up ∧ t.count = 0

/-- R15, R13: the frame of every command. It writes no element but its stored ones, which are elements of its own
output operand. The clauses on the command-local registers are the model's choice (R23 leaves them unspecified; DEDUCED,
notes/assumptions/11): it touches the packer's registers only in a PACK and the unpacker's only where there is an
output buffer, and COUNT_PACKED and the reserved code change the response alone. -/
def Obligations.CommandsTouchOnlyTheirOutputs : Prop :=
  ∀ (i : Instr) (s t : State), exec i s = .next t →
    t.issued = s.issued ∧
    (∀ e, e ∉ storedElems i s → t.mem.read e = s.mem.read e) ∧
    (∀ e, e ∈ storedElems i s → i.mayWrite e = true) ∧
    ((∀ input outWord, i ≠ .pack input outWord) → t.pk = s.pk) ∧
    (i.outBuf? = none → t.up = s.up) ∧
    ((∃ word, i = .countPacked word) ∨ i = .illegalCommand →
      t = { s with status := t.status, count := t.count })

/-- R191, R10, R31: a command's answer and what it writes depend on its operands and on the elements they let it
read, and on nothing an earlier command left in the block. -/
def Obligations.ResultsDependOnOperandsOnly : Prop :=
  ∀ (i : Instr) (s s' : State), i.wellFormed = true → s.mem.wf → s'.mem.wf →
    (∀ e, i.mayRead e = true → s.mem.read e = s'.mem.read e) →
    ∃ t t', exec i s = .next t ∧ exec i s' = .next t' ∧ t.status = t'.status ∧ t.count = t'.count ∧
      storedElems i s = storedElems i s' ∧
      ∀ e ∈ storedElems i s, t.mem.read e = t'.mem.read e

/-- R5, D11, D12: whatever `LEN_W` and `CAP_W`, every command has the result of the exact `N` and `C`, the refusal of
R41 included, and so has every step. From 8 bits on the operands pass on the largest length they can say for a
longer one; that form is the model's choice (notes/assumptions/9). -/
def Obligations.EightBitLengthsSuffice : Prop :=
  (∀ (p : Params) (r : Request) (s : State), exec (decode (r.latchedBy p)) s = exec (decode r) s) ∧
  ∀ (p : Params) (s : State), stepBehind p s = step s

/-! ## Several instances, and the host's bytes -/

/-- R178, R40: when two instances' next commands are on disjoint buffers, and neither writes the other's `WORD`
variable, the two orders of running them give the same system. That the whole blocks agree, the free values in
their command-local registers included, rests on the model's counting draws for each instance apart
(DESIGN CHOICE, notes/assumptions/10). -/
def Obligations.DisjointCommandsOfTwoInstancesCommute : Prop :=
  ∀ (sys : System) (a b : Nat) (ba bb : Block) (ra rb : Request) (resta restb : List HostInput),
    sys.mem.wf → a ≠ b → sys.blocks[a]? = some ba → sys.blocks[b]? = some bb →
    ba.issued = .issue ra :: resta → bb.issued = .issue rb :: restb →
    (decode ra).wellFormed = true → (decode rb).wellFormed = true → (decode ra).disjoint (decode rb) →
    ∃ sys', System.run [a, b] sys = .next sys' ∧ System.run [b, a] sys = .next sys'

/-- R41, R178: the commands two instances run at the same time are refused by name exactly where their buffers are
not disjoint; otherwise they start together, each with its `WORD` latched, and run. A command that reset
interrupts counts as running; a list that names an instance twice names it once; the commands start together and
run in the listed order: all three are the model's choice (DESIGN CHOICE, notes/assumptions/10). -/
def Obligations.ConcurrentCommandsMustBeDisjoint : Prop :=
  ∀ (sys : System) (a b : Nat) (ba bb : Block) (i j : Instr),
    sys.blocks[a]? = some ba → sys.blocks[b]? = some bb →
    ba.nextInstr? = some i → bb.nextInstr? = some j →
    (a ≠ b → ¬ i.buffersDisjoint j → sys.together [a, b] = .refused .overlappingCommands) ∧
    (a ≠ b → i.buffersDisjoint j →
      sys.together [a, b] = System.run [a, b] ((sys.startAt a).startAt b) ∧
      sys.together [a, b] ≠ .refused .overlappingCommands) ∧
    sys.together [a, a] = System.run [a] (sys.startAt a)

/-- R178, R10: a step of one instance leaves every other instance as it was, and the parameters. -/
def Obligations.InstancesShareOnlyTheStorage : Prop :=
  ∀ (sys sys' : System) (k j : Nat), sys.stepAt k = .next sys' → j ≠ k →
    sys'.blocks[j]? = sys.blocks[j]? ∧ sys'.blocks.length = sys.blocks.length ∧ sys'.params = sys.params

/-- R36: whatever byte order the host stores words in, reading the bytes back in that order gives the integer
verbatim. -/
def Obligations.StoredBytesKeepTheWord : Prop :=
  ∀ (p : Params) (w : Word), p.wf → loadBytes p.hostWordOrder (storeBytes p.hostWordOrder w) = w ∧
    (storeBytes p.hostWordOrder w).length = 8

/-- R178: the commands two instances run at the same time on disjoint buffers (R41) give the same system in either
order, even where one writes the host variable that the other took its `WORD` from: a `WORD` is latched at
command start. That they start together, and that the draws of each instance are counted apart, is the model's
choice (DESIGN CHOICE, notes/assumptions/10). -/
def Obligations.ConcurrentDisjointCommandsHaveOneResult : Prop :=
  ∀ (sys : System) (a b : Nat) (ba bb : Block) (ra rb : Request) (resta restb : List HostInput),
    sys.mem.wf → a ≠ b → sys.blocks[a]? = some ba → sys.blocks[b]? = some bb →
    ba.issued = .issue ra :: resta → bb.issued = .issue rb :: restb →
    (decode ra).wellFormed = true → (decode rb).wellFormed = true →
    (decode ra).buffersDisjoint (decode rb) →
    ∃ sys', sys.together [a, b] = .next sys' ∧ sys.together [b, a] = .next sys'
end

