-- ==== Sys2Proof/Laws/Encoding.lean ====
section
/-! SUPPORT. The encoder's fields: where each bit of a slot, of the selector and of the unused bits stands
(R50, R51, R53). -/

namespace Sys2Proof

variable {width : Nat} {vs : List (BitVec width)} {i b : Nat}

/-- Bit `b` of placed slots is bit `b % width` of slot `b / width`. -/
theorem placeSlots_getLsbD (hw : 0 < width) :
    (placeSlots width i vs).getLsbD b =
      (decide (b < 64 ∧ i ≤ b / width) && ((vs[b / width - i]?).getD 0).getLsbD (b % width)) := by
  induction vs generalizing i with
  | nil => simp [placeSlots]
  | cons v vs ih =>
    rw [placeSlots, BitVec.getLsbD_or, ih, BitVec.getLsbD_shiftLeft, BitVec.getLsbD_setWidth]
    by_cases hb : b < 64
    · rcases Nat.lt_trichotomy (b / width) i with hlt | heq | hgt
      · have h1 : b < i * width := (Nat.div_lt_iff_lt_mul hw).1 hlt
        have h2 : ¬ i ≤ b / width := by omega
        have h3 : ¬ i + 1 ≤ b / width := by omega
        simp [h1, h2, h3]
      · have h1 : b = i * width + b % width := by
          rw [← heq, Nat.mul_comm]; exact (Nat.div_add_mod b width).symm
        have h2 : b - i * width = b % width := by omega
        have h3 : ¬ b < i * width := by omega
        have h4 : b % width < 64 := by omega
        simp [hb, heq, h2, h3, h4]
      · have h1 : ¬ b < i * width := by
          rw [not_lt]; exact (Nat.le_div_iff_mul_le hw).1 hgt.le
        have h2 : width ≤ b - i * width := by
          have := (Nat.le_div_iff_mul_le hw).1 (by omega : i + 1 ≤ b / width)
          rw [Nat.add_mul, Nat.one_mul] at this
          omega
        have h3 : b / width - i = (b / width - (i + 1)) + 1 := by omega
        have h4 : i ≤ b / width := hgt.le
        have h5 : i + 1 ≤ b / width := hgt
        simp [hb, h1, h3, h4, h5, BitVec.getLsbD_of_ge v _ h2]
    · simp [hb]

theorem placeSel_getLsbD {s : Sel} : (placeSel s).getLsbD b = (decide (60 ≤ b) && s.getLsbD (b - 60)) := by
  rw [placeSel, BitVec.getLsbD_shiftLeft, BitVec.getLsbD_setWidth]
  by_cases h : 60 ≤ b
  · by_cases h2 : b < 64
    · simp [h, h2, Nat.not_lt.2 h]; omega
    · simp [h2, BitVec.getLsbD_of_ge s (b - 60) (by omega)]
  · simp [h, Nat.lt_of_not_le h]

variable {n : Nat} {slots : Vector (BitVec width) n} {s : Sel} {rest : Word}

/-- The selector field of an encoded word is its selector: no slot reaches bits 63:60. -/
theorem selx_encodeSlots (hw : 0 < width) (hn : n * width ≤ 60) : selx (encodeSlots s slots) = s := by
  apply BitVec.eq_of_getLsbD_eq
  intro k hk
  rw [selx, BitVec.getLsbD_extractLsb', encodeSlots, BitVec.getLsbD_or, placeSel_getLsbD,
    placeSlots_getLsbD hw]
  have h1 : n ≤ (60 + k) / width := (Nat.le_div_iff_mul_le hw).2 (by omega)
  have h2 : slots.toList[(60 + k) / width - 0]? = none :=
    List.getElem?_eq_none (by simpa using h1)
  rw [h2]
  simp [hk]

theorem selx_or_of_lt (h : ∀ b, 60 ≤ b → rest.getLsbD b = false) {w : Word} (hs : selx w = s) :
    selx (w ||| rest) = s := by
  rw [← hs]
  apply BitVec.eq_of_getLsbD_eq
  intro k hk
  simp [selx, hk, h (60 + k) (by omega)]

/-- The slots of an encoded word are the slots it was made from, whatever stands above them. -/
theorem slotsOf_encodeSlots (hw : 0 < width) (hn : n * width ≤ 60)
    (h : ∀ b, b < n * width → rest.getLsbD b = false) :
    slotsOf width n (encodeSlots s slots ||| rest) = slots := by
  apply Vector.ext
  intro i hi
  rw [slotsOf, Vector.getElem_ofFn]
  apply BitVec.eq_of_getLsbD_eq
  intro k hk
  have hlt : i * width + k < n * width := by
    calc i * width + k < i * width + width := by omega
      _ = (i + 1) * width := by rw [Nat.add_mul, Nat.one_mul]
      _ ≤ n * width := Nat.mul_le_mul_right _ hi
  have h1 : (i * width + k) / width = i := by
    rw [Nat.mul_comm, Nat.mul_add_div hw, Nat.div_eq_of_lt hk, Nat.add_zero]
  have h2 : (i * width + k) % width = k := by
    rw [Nat.mul_comm, Nat.mul_add_mod, Nat.mod_eq_of_lt hk]
  rw [BitVec.getLsbD_extractLsb', BitVec.getLsbD_or, encodeSlots, BitVec.getLsbD_or, placeSel_getLsbD,
    placeSlots_getLsbD hw, h1, h2, h _ hlt]
  have h3 : ¬ 60 ≤ i * width + k := by omega
  have h4 : i * width + k < 64 := by omega
  simp [hk, h3, h4, hi]

theorem slotsOf_encodeSlots_self (hw : 0 < width) (hn : n * width ≤ 60) :
    slotsOf width n (encodeSlots s slots) = slots := by
  have := slotsOf_encodeSlots (rest := 0) (s := s) (slots := slots) hw hn (by simp)
  simpa using this

end Sys2Proof
end

