-- ==== Sys2Proof/Laws/Rom.lean ====
section
/-! SUPPORT. The facts of the ROM that the packer and the unpacker rest on (R74). -/

namespace Sys2Proof.Machine

theorem romWidth_mul_romCount_le (s : Sel) : (romWidth s).toNat * (romCount s).toNat ≤ 60 := by
  revert s; decide

theorem romWidth_le (s : Sel) : (romWidth s).toNat ≤ 60 := by
  revert s; decide

theorem romCount_pos (s : Sel) : 1 ≤ (romCount s).toNat := by
  revert s; decide

theorem romCount_le (s : Sel) : (romCount s).toNat ≤ 240 := by
  revert s; decide

/-- Widths do not decrease with the selector. -/
theorem romWidth_mono {a b : Sel} (h : a ≤ b) : (romWidth a).toNat ≤ (romWidth b).toNat := by
  revert a b; decide

/-- Counts do not increase with the selector. -/
theorem romCount_anti {a b : Sel} (h : a ≤ b) : (romCount b).toNat ≤ (romCount a).toNat := by
  revert a b; decide

/-- Counts strictly decrease. -/
theorem romCount_strictAnti {a b : Sel} (h : a < b) : (romCount b).toNat < (romCount a).toNat := by
  revert a b; decide

end Sys2Proof.Machine
end

