-- ==== Sys2Proof/Laws/Resolver.lean ====
section
/-! SUPPORT. The resolver: what `bitlen` measures, and which selector it answers (R90 to R93). -/

namespace Sys2Proof.Machine

variable {v : Word} {s : Sel}

/-- `bitlen v` is the least `b` with `v < 2^b`. -/
theorem bitlen_le_iff {b : Nat} : bitlen v ≤ b ↔ v.toNat < 2 ^ b := by
  unfold bitlen
  split
  · subst_vars; simp
  · have hv : v.toNat ≠ 0 := fun h => ‹¬ v = 0› (BitVec.eq_of_toNat_eq (by simpa using h))
    rw [Nat.add_one_le_iff, Nat.log2_lt hv]

theorem bitlen_le : bitlen v ≤ 64 := bitlen_le_iff.2 v.isLt

/-- The selector the mapping of R91 gives to a bit length up to 60, read off its table. -/
def selOfBits (b : Nat) : Sel :=
  if b = 0 then 0
  else if b ≤ 8 then BitVec.ofNat 4 (b + 1)
  else if b ≤ 10 then 10
  else if b ≤ 12 then 11
  else if b ≤ 15 then 12
  else if b ≤ 20 then 13
  else if b ≤ 30 then 14
  else 15

theorem resolve_eq :
    resolve v = if bitlen v ≤ 60 then .sel (selOfBits (bitlen v)) else .tooLarge := by
  unfold resolve selOfBits
  simp only
  split_ifs <;> first | rfl | omega

/-- The resolver's only failure (R92). -/
theorem resolve_tooLarge_iff : resolve v = .tooLarge ↔ 2 ^ 60 ≤ v.toNat := by
  have h : bitlen v ≤ 60 ↔ ¬ 2 ^ 60 ≤ v.toNat := by rw [bitlen_le_iff, not_le]
  rw [resolve_eq]
  split <;> simp_all

theorem selOfBits_le_iff {b : Nat} (hb : b ≤ 60) :
    selOfBits b ≤ s ↔ b ≤ (romWidth s).toNat := by
  have h : ∀ b < 61, ∀ s : Sel, selOfBits b ≤ s ↔ b ≤ (romWidth s).toNat := by decide
  exact h b (by omega) s

/-- The selector answered is the smallest whose width holds the value (R93). -/
theorem resolve_le_iff {t : Sel} (h : resolve v = .sel t) :
    t ≤ s ↔ v.toNat < 2 ^ (romWidth s).toNat := by
  rw [resolve_eq] at h
  split at h
  · rename_i hb
    injection h with h
    rw [← h, selOfBits_le_iff hb, bitlen_le_iff]
  · cases h

/-- A value below 2^60 gets a selector. -/
theorem resolve_of_lt (h : v.toNat < 2 ^ 60) : ∃ t, resolve v = .sel t := by
  rw [resolve_eq, if_pos (bitlen_le_iff.2 h)]
  exact ⟨_, rfl⟩

end Sys2Proof.Machine
end

