-- ==== Sys2Proof/Laws/Pack.lean ====
section
/-! SUPPORT. The packer: what the scan, the widening and the accumulator leave (R112 to R120). -/

namespace Sys2Proof.Machine

/-! ## The scan -/

/-- The packer's registers after the elements `pre` were consumed and nothing stopped the scan: `SEL` is the
smallest selector whose width holds them all. -/
structure Consumed (pre : List Word) (r : PackRegs) : Prop where
  cnt : r.cnt.toNat = pre.length
  idx : r.idx.toNat = pre.length
  stop : r.stop = 0
  acc : r.acc = 0
  fits : pre.length ≤ (romCount r.sel).toNat
  sel : ∀ t, r.sel ≤ t ↔ ∀ v ∈ pre, v.toNat < 2 ^ (romWidth t).toNat

theorem consumed_start : Consumed [] PackRegs.start where
  cnt := rfl
  idx := rfl
  stop := rfl
  acc := rfl
  fits := by simp
  sel := by simp [PackRegs.start, BitVec.le_def]

theorem Consumed.length_le {pre : List Word} {r : PackRegs} (h : Consumed pre r) : pre.length ≤ 240 :=
  h.fits.trans (romCount_le _)

/-- Consumed elements are held by one selector. -/
theorem Consumed.held {pre : List Word} {r : PackRegs} (h : Consumed pre r) : oneSelectorHolds pre :=
  ⟨r.sel, h.fits, (h.sel r.sel).1 (BitVec.le_refl _)⟩

theorem maxSel_le_iff {a b t : Sel} : maxSel a b ≤ t ↔ a ≤ t ∧ b ≤ t := by
  revert a b t; decide

/-- `cand` is the smallest selector that holds the consumed elements and the new one. -/
theorem Consumed.cand {pre : List Word} {r : PackRegs} (h : Consumed pre r) {v : Word} {s : Sel}
    (hv : resolve v = .sel s) (t : Sel) :
    maxSel r.sel s ≤ t ↔ ∀ u ∈ pre ++ [v], u.toNat < 2 ^ (romWidth t).toNat := by
  rw [maxSel_le_iff, h.sel, resolve_le_iff hv]
  simp [or_imp, forall_and]

/-- How the scan ends, from a point where `pre` is consumed and `rest` unread. -/
inductive ScanSpec (pre rest : List Word) : ScanEnd → Prop where
  /-- Exhaustion. -/
  | exhausted (r : PackRegs) (h : Consumed (pre ++ rest) r) : ScanSpec pre rest (.closed r)
  /-- Early stop at `v`, which no selector holds together with the consumed elements. -/
  | stopped (mid : List Word) (v : Word) (post : List Word) (r : PackRegs)
      (split : rest = mid ++ v :: post) (h : Consumed (pre ++ mid) r) (small : v.toNat < 2 ^ 60)
      (full : ¬ oneSelectorHolds (pre ++ mid ++ [v])) :
      ScanSpec pre rest (.closed { r with idx := r.idx + 1, stop := 1 })
  /-- Failure at `v`. -/
  | failed (mid : List Word) (v : Word) (post : List Word) (r : PackRegs)
      (split : rest = mid ++ v :: post) (h : Consumed (pre ++ mid) r) (large : 2 ^ 60 ≤ v.toNat) :
      ScanSpec pre rest (.tooLarge { r with idx := r.idx + 1 })

theorem toNat_add_one {n : BitVec 8} (h : n.toNat ≤ 240) : (n + 1).toNat = n.toNat + 1 := by
  rw [BitVec.toNat_add]; simp; omega

theorem scan_spec {pre rest : List Word} {r : PackRegs} (h : Consumed pre r) :
    ScanSpec pre rest (scan rest r) := by
  induction rest generalizing pre r with
  | nil => exact .exhausted r (by simpa using h)
  | cons v rest ih =>
    simp only [scan]
    split
    · rename_i hv
      exact .failed [] v rest r rfl (by simpa using h) (resolve_tooLarge_iff.1 hv)
    · rename_i s hv
      have hlt : v.toNat < 2 ^ 60 := by
        by_contra hc
        rw [resolve_tooLarge_iff.2 (not_lt.1 hc)] at hv
        cases hv
      have hcnt : r.cnt.toNat ≤ 240 := by rw [h.cnt]; exact h.length_le
      split
      · rename_i hfull
        refine .stopped [] v rest r rfl (by simpa using h) hlt ?_
        rintro ⟨t, hlen, hfit⟩
        have hle : maxSel r.sel s ≤ t := (h.cand hv t).2 (by simpa using hfit)
        have h1 := romCount_anti hle
        rw [BitVec.le_def, h.cnt] at hfull
        simp at hlen
        omega
      · rename_i hroom
        have hnext : Consumed (pre ++ [v])
            { r with idx := r.idx + 1, sel := maxSel r.sel s, cnt := r.cnt + 1 } := by
          refine ⟨?_, ?_, h.stop, h.acc, ?_, h.cand hv⟩
          · rw [List.length_append, ← h.cnt]; exact toNat_add_one hcnt
          · have : r.idx.toNat ≤ 240 := by rw [h.idx]; exact h.length_le
            rw [List.length_append, ← h.idx]; exact toNat_add_one this
          · rw [BitVec.le_def, h.cnt] at hroom
            simp; omega
        have hspec := ih hnext
        generalize scan rest { r with idx := r.idx + 1, sel := maxSel r.sel s, cnt := r.cnt + 1 } = out
          at hspec
        cases hspec with
        | exhausted r' h' => exact .exhausted r' (by simpa using h')
        | stopped mid u post r' hs h' hu hf =>
          exact .stopped (v :: mid) u post r' (by simp [hs]) (by simpa using h') hu (by simpa using hf)
        | failed mid u post r' hs h' hu =>
          exact .failed (v :: mid) u post r' (by simp [hs]) (by simpa using h') hu

/-! ## Widening -/

/-- Widening changes `SEL` alone, keeps room for `CNT`, and with fuel enough ends at the last selector that
has it. -/
theorem widenLoop_spec (fuel : Nat) (r : PackRegs) (h : r.cnt ≤ romCount r.sel) :
    ∃ s, widenLoop fuel r = { r with sel := s } ∧ r.sel ≤ s ∧ r.cnt ≤ romCount s ∧
      (15 ≤ r.sel.toNat + fuel → ∀ t, s < t → romCount t < r.cnt) := by
  induction fuel generalizing r with
  | zero =>
    refine ⟨r.sel, rfl, BitVec.le_refl _, h, fun hf t ht => ?_⟩
    have := r.sel.isLt
    have := t.isLt
    rw [BitVec.lt_def] at ht
    omega
  | succ fuel ih =>
    rw [widenLoop]
    split
    · rename_i hc
      have h15 : r.sel.toNat < 15 := by simpa [BitVec.lt_def] using hc.1
      have hsel : (r.sel + 1).toNat = r.sel.toNat + 1 := by
        rw [BitVec.toNat_add]; simp; omega
      obtain ⟨s, hs, hle, hcnt, hmax⟩ := ih { r with sel := r.sel + 1 } hc.2
      refine ⟨s, hs, ?_, hcnt, fun hf => hmax (by simp only [hsel]; omega)⟩
      rw [BitVec.le_def] at hle ⊢
      simp only [hsel] at hle
      omega
    · rename_i hc
      refine ⟨r.sel, rfl, BitVec.le_refl _, h, fun _ t ht => ?_⟩
      rw [BitVec.lt_def] at ht
      have htl := t.isLt
      have h15 : r.sel < 15 := by rw [BitVec.lt_def]; simp; omega
      have hnext : romCount (r.sel + 1) < r.cnt := by
        rw [BitVec.lt_def]
        by_contra hn
        exact hc ⟨h15, by rw [BitVec.le_def]; omega⟩
      have hsel : (r.sel + 1).toNat = r.sel.toNat + 1 := by
        rw [BitVec.lt_def] at h15; simp at h15
        rw [BitVec.toNat_add]; simp; omega
      have := romCount_anti (a := r.sel + 1) (b := t) (by rw [BitVec.le_def]; omega)
      rw [BitVec.lt_def] at hnext ⊢
      omega

/-! ## The accumulator -/

/-- The number the accumulator holds after the values, slot 0 lowest. -/
def slotSum (w : Nat) (vs : List Word) : Nat := vs.foldr (fun v n => n * 2 ^ w + v.toNat) 0

@[simp] theorem slotSum_nil {w : Nat} : slotSum w [] = 0 := rfl

@[simp] theorem slotSum_cons {w : Nat} {v : Word} {vs : List Word} :
    slotSum w (v :: vs) = slotSum w vs * 2 ^ w + v.toNat := rfl

theorem slotSum_lt {w : Nat} {vs : List Word} (h : ∀ v ∈ vs, v.toNat < 2 ^ w) :
    slotSum w vs < 2 ^ (vs.length * w) := by
  induction vs with
  | nil => simp
  | cons v vs ih =>
    have h1 := ih fun u hu => h u (by simp [hu])
    have h2 := h v (by simp)
    rw [slotSum_cons, List.length_cons, Nat.add_mul, Nat.one_mul, Nat.pow_add]
    nlinarith

/-- The accumulator loses no bit while all the slots fit in 60 (R120). -/
theorem foldr_accStep {w : Nat} {vs : List Word} (h : ∀ v ∈ vs, v.toNat < 2 ^ w)
    (hw : vs.length * w ≤ 60) : (vs.foldr (accStep w) 0).toNat = slotSum w vs := by
  induction vs with
  | nil => rfl
  | cons v vs ih =>
    have hlen : vs.length * w + w ≤ 60 := by simpa [Nat.add_mul] using hw
    have hvs : ∀ u ∈ vs, u.toNat < 2 ^ w := fun u hu => h u (by simp [hu])
    have hv := h v (by simp)
    have hacc := ih hvs (by omega)
    have hlt := slotSum_lt hvs
    have hpow : 2 ^ (vs.length * w) * 2 ^ w ≤ 2 ^ 60 := by
      rw [← Nat.pow_add]; exact Nat.pow_le_pow_right (by omega) hlen
    have hsmall : slotSum w vs * 2 ^ w < 2 ^ 64 := by
      have : slotSum w vs * 2 ^ w < 2 ^ (vs.length * w) * 2 ^ w :=
        Nat.mul_lt_mul_of_pos_right hlt (by positivity)
      omega
    rw [List.foldr_cons, accStep, BitVec.toNat_or, BitVec.toNat_shiftLeft, hacc, slotSum_cons,
      Nat.shiftLeft_eq, Nat.mod_eq_of_lt hsmall, Nat.mul_comm _ (2 ^ w),
      Nat.two_pow_add_eq_or_of_lt hv]

/-- Slot `j` of the number is value `j` (R51). -/
theorem slotSum_slot {w : Nat} {vs : List Word} (h : ∀ v ∈ vs, v.toNat < 2 ^ w) {j : Nat}
    (hj : j < vs.length) : slotSum w vs / 2 ^ (j * w) % 2 ^ w = vs[j].toNat := by
  induction vs generalizing j with
  | nil => simp at hj
  | cons v vs ih =>
    have hv := h v (by simp)
    cases j with
    | zero => simp [Nat.mod_eq_of_lt hv]
    | succ j =>
      rw [slotSum_cons, Nat.add_mul, Nat.one_mul, Nat.add_comm (j * w), Nat.pow_add, ← Nat.div_div_eq_div_mul]
      rw [Nat.mul_comm (slotSum w vs), Nat.mul_add_div (by positivity), Nat.div_eq_of_lt hv, Nat.add_zero]
      simpa using ih (fun u hu => h u (by simp [hu])) (j := j) (by simpa using hj)

theorem slotSum_eq_sum {w : Nat} {vs : List Word} :
    slotSum w vs = ∑ j ∈ Finset.range vs.length, (vs.getD j 0).toNat * 2 ^ (j * w) := by
  induction vs with
  | nil => simp
  | cons v vs ih =>
    rw [slotSum_cons, ih, List.length_cons, Finset.sum_range_succ', Finset.sum_mul]
    congr 1
    · refine Finset.sum_congr rfl fun j _ => ?_
      rw [Nat.add_mul, Nat.one_mul, Nat.pow_add, ← Nat.mul_assoc]
      rfl
    · simp

/-! ## The whole packer -/

/-- A shorter prefix is held where a longer one is. -/
theorem oneSelectorHolds_take {vs : List Word} (h : oneSelectorHolds vs) (n : Nat) :
    oneSelectorHolds (vs.take n) := by
  obtain ⟨s, hlen, hfit⟩ := h
  exact ⟨s, by simp; omega, fun v hv => hfit v (List.mem_of_mem_take hv)⟩

/-- What the packer's registers hold when the word is assembled (R113 to R116, R120, R124). -/
structure PackDone (xs : List Word) (r : PackRegs) : Prop where
  cnt_le : r.cnt.toNat ≤ xs.length
  fits : r.cnt.toNat ≤ (romCount r.sel).toNat
  small : ∀ v ∈ xs.take r.cnt.toNat, v.toNat < 2 ^ (romWidth r.sel).toNat
  acc : r.acc.toNat = slotSum (romWidth r.sel).toNat (xs.take r.cnt.toNat)
  ending :
    (r.stop = 0 ∧ r.cnt.toNat = xs.length ∧ r.idx.toNat = xs.length ∧
      ∀ t, r.sel ≤ t ↔ ∀ v ∈ xs, v.toNat < 2 ^ (romWidth t).toNat) ∨
    (r.stop = 1 ∧ r.idx.toNat = r.cnt.toNat + 1 ∧ (∃ v, xs[r.cnt.toNat]? = some v ∧ v.toNat < 2 ^ 60) ∧
      ¬ oneSelectorHolds (xs.take (r.cnt.toNat + 1)) ∧
      ∀ t, r.sel < t → (romCount t).toNat < r.cnt.toNat)

theorem accumulate_acc {xs : List Word} {r : PackRegs} (h0 : r.acc = 0)
    (hfit : r.cnt.toNat ≤ (romCount r.sel).toNat)
    (hsmall : ∀ v ∈ xs.take r.cnt.toNat, v.toNat < 2 ^ (romWidth r.sel).toNat) :
    (accumulate xs r).acc.toNat = slotSum (romWidth r.sel).toNat (xs.take r.cnt.toNat) := by
  have hw := romWidth_mul_romCount_le r.sel
  have hlen : (xs.take r.cnt.toNat).length * (romWidth r.sel).toNat ≤ 60 := by
    have : (xs.take r.cnt.toNat).length ≤ (romCount r.sel).toNat := by simp; omega
    calc _ ≤ (romCount r.sel).toNat * (romWidth r.sel).toNat := Nat.mul_le_mul_right _ this
      _ ≤ 60 := by rw [Nat.mul_comm]; exact hw
  simp only [accumulate, h0]
  exact foldr_accStep hsmall hlen

/-- How PACK's packer ends: a failing element, or registers that meet `PackDone`. -/
theorem packRegs_cases (xs : List Word) :
    (packRegs xs = none ∧ ∃ f, failsAt xs f) ∨ ∃ r, packRegs xs = some r ∧ PackDone xs r := by
  have hscan := scan_spec (rest := xs) consumed_start
  unfold packRegs
  generalize scan xs PackRegs.start = out at hscan
  cases hscan with
  | failed mid v post r hs h hv =>
    refine .inl ⟨rfl, mid.length, ⟨v, by simp [hs], hv⟩, ?_⟩
    simpa [hs] using h.held
  | exhausted r h =>
    rw [List.nil_append] at h
    have hw : widen r = r := by simp [widen, h.stop]
    refine .inr ⟨accumulate xs r, by simp only [hw], ?_⟩
    have hfit : r.cnt.toNat ≤ (romCount r.sel).toNat := by rw [h.cnt]; exact h.fits
    have hsmall : ∀ v ∈ xs.take r.cnt.toNat, v.toNat < 2 ^ (romWidth r.sel).toNat :=
      fun v hv => (h.sel r.sel).1 (BitVec.le_refl _) v (List.mem_of_mem_take hv)
    exact ⟨h.cnt.le, hfit, hsmall, accumulate_acc h.acc hfit hsmall,
      .inl ⟨h.stop, h.cnt, h.idx, h.sel⟩⟩
  | stopped mid v post r hs h hv hfull =>
    rw [List.nil_append] at h hfull
    have hcnt : r.cnt ≤ romCount r.sel := by rw [BitVec.le_def, h.cnt]; exact h.fits
    obtain ⟨s, hw, hle, hroom, hmax⟩ :=
      widenLoop_spec 15 { r with idx := r.idx + 1, stop := 1 } hcnt
    have hwid : widen { r with idx := r.idx + 1, stop := 1 } =
        { r with idx := r.idx + 1, stop := 1, sel := s } := by
      rw [widen, if_pos rfl, hw]
    refine .inr ⟨accumulate xs { r with idx := r.idx + 1, stop := 1, sel := s }, by simp only [hwid], ?_⟩
    have htake : xs.take r.cnt.toNat = mid := by simp [hs, h.cnt]
    have hsmall : ∀ u ∈ xs.take r.cnt.toNat, u.toNat < 2 ^ (romWidth s).toNat := by
      rw [htake]
      exact (h.sel s).1 hle
    refine ⟨?_, hroom, hsmall,
      accumulate_acc (r := { r with idx := r.idx + 1, stop := 1, sel := s }) h.acc hroom hsmall,
      .inr ⟨rfl, ?_, ⟨v, ?_, hv⟩, ?_, fun t ht => hmax (by simp) t ht⟩⟩
    · simp [accumulate, h.cnt, hs]
    · have : r.idx.toNat ≤ 240 := by rw [h.idx]; exact h.length_le
      simp only [accumulate]
      rw [toNat_add_one this, h.idx, h.cnt]
    · simp [accumulate, hs, h.cnt]
    · have : (accumulate xs { r with idx := r.idx + 1, stop := 1, sel := s }).cnt.toNat = mid.length := h.cnt
      rw [this, hs]
      simpa [List.take_append, List.take_of_length_le] using hfull

/-- Where the packer ends with registers, no scanned element was too large. -/
theorem PackDone.not_failsAt {xs : List Word} {r : PackRegs} (h : PackDone xs r) (f : Nat) :
    ¬ failsAt xs f := by
  rintro ⟨⟨v, hv, hlarge⟩, hheld⟩
  have hf : f < xs.length := by
    by_contra hc
    rw [List.getElem?_eq_none (by omega)] at hv
    cases hv
  rcases Nat.lt_trichotomy f r.cnt.toNat with hlt | heq | hgt
  · have hmem : v ∈ xs.take r.cnt.toNat := by
      refine List.mem_iff_getElem?.2 ⟨f, ?_⟩
      rw [List.getElem?_take_of_lt hlt, hv]
    have h1 := h.small v hmem
    have h2 : 2 ^ (romWidth r.sel).toNat ≤ 2 ^ 60 :=
      Nat.pow_le_pow_right (by omega) (romWidth_le _)
    omega
  · rcases h.ending with ⟨-, hall, -⟩ | ⟨-, -, ⟨u, hu, hsmall⟩, -⟩
    · omega
    · rw [← heq, hv] at hu
      injection hu with hu
      subst hu
      omega
  · rcases h.ending with ⟨-, hall, -⟩ | ⟨-, -, -, hfull, -⟩
    · omega
    · refine hfull ?_
      have := oneSelectorHolds_take hheld (r.cnt.toNat + 1)
      rwa [List.take_take, Nat.min_eq_left (by omega)] at this

/-- The assembled word as a number: the selector above the slots (R117, R119). -/
theorem PackDone.packedWord_toNat {xs : List Word} {r : PackRegs} (h : PackDone xs r) :
    (packedWord r).toNat =
      r.sel.toNat * 2 ^ 60 + slotSum (romWidth r.sel).toNat (xs.take r.cnt.toNat) := by
  have hlt : r.acc.toNat < 2 ^ 60 := by
    rw [h.acc]
    refine (slotSum_lt h.small).trans_le (Nat.pow_le_pow_right (by omega) ?_)
    have := romWidth_mul_romCount_le r.sel
    have hl : (xs.take r.cnt.toNat).length ≤ (romCount r.sel).toNat := by
      have := h.fits; simp; omega
    calc _ ≤ (romCount r.sel).toNat * (romWidth r.sel).toNat := Nat.mul_le_mul_right _ hl
      _ ≤ 60 := by rw [Nat.mul_comm]; exact this
  have hsel := r.sel.isLt
  rw [packedWord, BitVec.toNat_or, BitVec.toNat_shiftLeft, BitVec.toNat_setWidth, Nat.shiftLeft_eq,
    Nat.mod_eq_of_lt (by omega : r.sel.toNat < 2 ^ 64), Nat.mod_eq_of_lt (by omega), Nat.or_comm,
    Nat.mul_comm, ← Nat.two_pow_add_eq_or_of_lt hlt, h.acc]

theorem PackDone.take_length {xs : List Word} {r : PackRegs} (h : PackDone xs r) :
    (xs.take r.cnt.toNat).length = r.cnt.toNat := by
  simp [h.cnt_le]

theorem PackDone.held {xs : List Word} {r : PackRegs} (h : PackDone xs r) :
    oneSelectorHolds (xs.take r.cnt.toNat) :=
  ⟨r.sel, by rw [h.take_length]; exact h.fits, h.small⟩

/-- The slots in use fit the payload (R120 item 3). -/
theorem PackDone.mul_le {xs : List Word} {r : PackRegs} (h : PackDone xs r) :
    r.cnt.toNat * (romWidth r.sel).toNat ≤ 60 := by
  have := romWidth_mul_romCount_le r.sel
  calc _ ≤ (romCount r.sel).toNat * (romWidth r.sel).toNat := Nat.mul_le_mul_right _ h.fits
    _ ≤ 60 := by rw [Nat.mul_comm]; exact this

theorem PackDone.slotSum_lt {xs : List Word} {r : PackRegs} (h : PackDone xs r) :
    slotSum (romWidth r.sel).toNat (xs.take r.cnt.toNat) < 2 ^ (r.cnt.toNat * (romWidth r.sel).toNat) := by
  have := Machine.slotSum_lt h.small
  rwa [h.take_length] at this

/-- The selector field of the assembled word (R120 item 5). -/
theorem PackDone.selx_packedWord {xs : List Word} {r : PackRegs} (h : PackDone xs r) :
    selx (packedWord r) = r.sel := by
  apply BitVec.eq_of_toNat_eq
  have h1 := h.slotSum_lt
  have h2 : 2 ^ (r.cnt.toNat * (romWidth r.sel).toNat) ≤ 2 ^ 60 :=
    Nat.pow_le_pow_right (by omega) h.mul_le
  have := r.sel.isLt
  rw [selx, BitVec.extractLsb'_toNat, h.packedWord_toNat, Nat.shiftRight_eq_div_pow]
  omega

/-- A slot read out of a selector field over slots is the slot of the number below it. -/
theorem slot_below_sel {w : Word} {s n width j c : Nat} (hw : w.toNat = s * 2 ^ 60 + n) (hj : j < c)
    (hc : c * width ≤ 60) : (w.extractLsb' (j * width) width).toNat = n / 2 ^ (j * width) % 2 ^ width := by
  have hle : j * width + width ≤ 60 := by
    calc j * width + width = (j + 1) * width := by ring
      _ ≤ c * width := Nat.mul_le_mul_right _ hj
      _ ≤ 60 := hc
  have hpow : s * 2 ^ 60 = 2 ^ (j * width) * (2 ^ width * (s * 2 ^ (60 - (j * width + width)))) := by
    have : 2 ^ 60 = 2 ^ (j * width) * (2 ^ width * 2 ^ (60 - (j * width + width))) := by
      rw [← pow_add, ← pow_add]; congr 1; omega
    rw [this]; ring
  rw [BitVec.extractLsb'_toNat, hw, Nat.shiftRight_eq_div_pow, hpow, Nat.mul_add_div (by positivity),
    Nat.mul_add_mod]

/-- Slot `j` of the assembled word is input element `j` (R119). -/
theorem PackDone.slot_packedWord {xs : List Word} {r : PackRegs} (h : PackDone xs r) {j : Nat}
    (hj : j < r.cnt.toNat) (hx : j < xs.length) :
    ((packedWord r).extractLsb' (j * (romWidth r.sel).toNat) (romWidth r.sel).toNat).setWidth 64 = xs[j] := by
  apply BitVec.eq_of_toNat_eq
  have hjl : j < (xs.take r.cnt.toNat).length := by rw [h.take_length]; exact hj
  rw [BitVec.toNat_setWidth, slot_below_sel h.packedWord_toNat hj h.mul_le, slotSum_slot h.small hjl,
    List.getElem_take]
  exact Nat.mod_eq_of_lt (BitVec.isLt _)

/-- No bit of the assembled word stands between its last slot in use and its selector (R120 item 5). -/
theorem PackDone.packedWord_padding {xs : List Word} {r : PackRegs} (h : PackDone xs r) {b : Nat}
    (h1 : r.cnt.toNat * (romWidth r.sel).toNat ≤ b) (h2 : b < 60) : (packedWord r).getLsbD b = false := by
  have hlt := h.slotSum_lt
  rw [← BitVec.testBit_toNat, h.packedWord_toNat, Nat.mul_comm, Nat.testBit_two_pow_mul_add _
    (hlt.trans_le (Nat.pow_le_pow_right (by omega) h.mul_le)), if_pos h2]
  exact Nat.testBit_lt_two_pow (hlt.trans_le (Nat.pow_le_pow_right (by omega) h1))

end Sys2Proof.Machine
end

