-- ==== Sys2Proof/Laws/Memory.lean ====
section
/-! SUPPORT. The host's storage: every operation keeps the canonical form, and a write replaces one element. -/

namespace Sys2Proof.Machine

variable {m m' : Memory} {e a k : Nat} {v x : Word}

@[simp] theorem Memory.read_nil : Memory.read [] e = 0 := rfl

theorem Memory.read_cons :
    Memory.read ((k, v) :: m) e = if k = e then v else Memory.read m e := rfl

theorem Memory.read_append_cell :
    Memory.read (Memory.cell a v ++ m) e = if a = e ∧ v ≠ 0 then v else Memory.read m e := by
  unfold Memory.cell Memory.unlisted
  split
  · simp_all
  · simp_all [Memory.read_cons]

/-- An index below every listed one reads as an unlisted element. -/
theorem Memory.read_of_lt (h : ∀ c ∈ m, e < c.1) : m.read e = 0 := by
  induction m with
  | nil => rfl
  | cons c rest ih =>
    obtain ⟨k, x⟩ := c
    have hk : e < k := h (k, x) (by simp)
    rw [Memory.read_cons, if_neg (by omega), ih fun c hc => h c (by simp [hc])]

theorem Memory.wf_nil : Memory.wf [] := by simp [Memory.wf]

theorem Memory.wf_cons :
    Memory.wf ((k, x) :: m) ↔ (∀ c ∈ m, k < c.1) ∧ x ≠ 0 ∧ Memory.wf m := by
  simp only [Memory.wf, List.pairwise_cons, List.forall_mem_cons, Memory.unlisted]
  tauto

theorem Memory.wf_cell_append (hm : Memory.wf m) (h : ∀ c ∈ m, e < c.1) :
    Memory.wf (Memory.cell e v ++ m) := by
  unfold Memory.cell Memory.unlisted
  split
  · simpa using hm
  · simpa using Memory.wf_cons.2 ⟨h, ‹_›, hm⟩

theorem Memory.mem_write {c : Nat × Word} (h : c ∈ m.write e v) : c ∈ m ∨ c.1 = e := by
  have hcell : ∀ rest : Memory, c ∈ Memory.cell e v ++ rest → c.1 = e ∨ c ∈ rest := by
    intro rest hc
    unfold Memory.cell at hc
    split at hc
    · exact .inr (by simpa using hc)
    · rcases List.mem_cons.1 (by simpa using hc) with rfl | h
      · exact .inl rfl
      · exact .inr h
  induction m with
  | nil => rcases hcell [] (by simpa [Memory.write] using h) with h | h <;> simp_all
  | cons d rest ih =>
    obtain ⟨k, x⟩ := d
    simp only [Memory.write] at h
    split at h
    · rcases hcell _ h with h | h <;> simp [h]
    · split at h
      · rcases hcell _ h with h | h <;> simp [h]
      · rcases List.mem_cons.1 h with h | h
        · simp [h]
        · rcases ih h with h | h <;> simp [h]

/-- A write keeps the canonical form. -/
theorem Memory.wf_write (hm : m.wf) : (m.write e v).wf := by
  induction m with
  | nil => simpa [Memory.write] using Memory.wf_cell_append (e := e) (v := v) Memory.wf_nil (by simp)
  | cons d rest ih =>
    obtain ⟨k, x⟩ := d
    obtain ⟨hk, hx, hr⟩ := Memory.wf_cons.1 hm
    simp only [Memory.write]
    split
    · rename_i hlt
      exact Memory.wf_cell_append hm (by simpa [hlt] using fun a b hab => hlt.trans (hk _ hab))
    · split
      · rename_i heq
        exact Memory.wf_cell_append hr (by simpa [heq] using fun a b hab => hk _ hab)
      · refine Memory.wf_cons.2 ⟨fun c hc => ?_, hx, ih hr⟩
        rcases Memory.mem_write hc with h | h
        · exact hk c h
        · omega

theorem Memory.read_write_ne (h : a ≠ e) : (m.write e v).read a = m.read a := by
  induction m with
  | nil =>
    rw [Memory.write, ← List.append_nil (Memory.cell e v), Memory.read_append_cell]
    simp [h.symm]
  | cons d rest ih =>
    obtain ⟨k, x⟩ := d
    simp only [Memory.write]
    split
    · simp [Memory.read_append_cell, h.symm]
    · split
      · subst_vars
        simp [Memory.read_append_cell, Memory.read_cons, h.symm]
      · simp [Memory.read_cons, ih]

theorem Memory.read_write_self (hm : m.wf) : (m.write e v).read e = v := by
  induction m with
  | nil =>
    rw [Memory.write, ← List.append_nil (Memory.cell e v), Memory.read_append_cell]
    split <;> simp_all
  | cons d rest ih =>
    obtain ⟨k, x⟩ := d
    obtain ⟨hk, hx, hr⟩ := Memory.wf_cons.1 hm
    simp only [Memory.write]
    split
    · rename_i hlt
      rw [Memory.read_append_cell]
      split
      · rfl
      · rw [Memory.read_of_lt (by simpa [hlt] using fun a b hab => hlt.trans (hk _ hab))]
        simp_all
    · split
      · rename_i heq
        rw [Memory.read_append_cell]
        split
        · rfl
        · rw [Memory.read_of_lt (by simpa [heq] using fun a b hab => hk _ hab)]
          simp_all
      · rw [Memory.read_cons, if_neg (by omega), ih hr]

/-- A write replaces the element it names and no other (R33, R34). -/
theorem Memory.read_write (hm : m.wf) :
    (m.write e v).read a = if a = e then v else m.read a := by
  split
  · subst_vars; exact Memory.read_write_self hm
  · exact Memory.read_write_ne ‹_›

/-- Two storages in canonical form that read alike are the same data. -/
theorem Memory.ext_read (hm : m.wf) (hm' : m'.wf) (h : ∀ e, m.read e = m'.read e) : m = m' := by
  induction m generalizing m' with
  | nil =>
    cases m' with
    | nil => rfl
    | cons d rest =>
      obtain ⟨k, x⟩ := d
      have := h k
      simp only [Memory.read_nil, Memory.read_cons, if_true] at this
      exact absurd this.symm (Memory.wf_cons.1 hm').2.1
  | cons d rest ih =>
    obtain ⟨k, x⟩ := d
    obtain ⟨hk, hx, hr⟩ := Memory.wf_cons.1 hm
    cases m' with
    | nil =>
      have := h k
      simp only [Memory.read_nil, Memory.read_cons, if_true] at this
      exact absurd this hx
    | cons d' rest' =>
      obtain ⟨k', x'⟩ := d'
      obtain ⟨hk', hx', hr'⟩ := Memory.wf_cons.1 hm'
      have hkk : k = k' := by
        rcases Nat.lt_trichotomy k k' with hlt | heq | hlt
        · have := h k
          rw [Memory.read_cons, if_pos rfl, Memory.read_cons, if_neg (by omega),
            Memory.read_of_lt fun c hc => hlt.trans (hk' c hc)] at this
          exact absurd this hx
        · exact heq
        · have := h k'
          rw [Memory.read_cons, if_neg (by omega), Memory.read_cons, if_pos rfl,
            Memory.read_of_lt fun c hc => hlt.trans (hk c hc)] at this
          exact absurd this.symm hx'
      subst hkk
      have hxx : x = x' := by simpa [Memory.read_cons] using h k
      subst hxx
      refine congrArg _ (ih hr hr' fun e => ?_)
      by_cases he : k = e
      · subst he
        rw [Memory.read_of_lt hk, Memory.read_of_lt hk']
      · simpa [Memory.read_cons, he] using h e

theorem Memory.write_comm (hm : m.wf) {b : Nat} {y : Word} (h : a ≠ b) :
    (m.write a v).write b y = (m.write b y).write a v := by
  refine Memory.ext_read (wf_write (wf_write hm)) (wf_write (wf_write hm)) fun e => ?_
  simp only [Memory.read_write (wf_write hm), Memory.read_write hm]
  split_ifs <;> simp_all

theorem Memory.write_write (hm : m.wf) : (m.write e x).write e v = m.write e v := by
  refine Memory.ext_read (wf_write (wf_write hm)) (wf_write hm) fun a => ?_
  simp only [Memory.read_write (wf_write hm), Memory.read_write hm]
  split_ifs <;> rfl

variable {vs : List Word}

theorem Memory.wf_writeList (hm : m.wf) : (m.writeList e vs).wf := by
  induction vs generalizing m e with
  | nil => exact hm
  | cons v vs ih => exact ih (wf_write hm)

/-- What consecutive writes leave: the written values, and every other element as it was. -/
theorem Memory.read_writeList (hm : m.wf) :
    (m.writeList e vs).read a =
      if h : e ≤ a ∧ a - e < vs.length then vs[a - e] else m.read a := by
  induction vs generalizing m e with
  | nil => simp [Memory.writeList]
  | cons v vs ih =>
    rw [Memory.writeList, ih (wf_write hm), Memory.read_write hm]
    by_cases h1 : a = e
    · subst h1; simp
    · by_cases h2 : e + 1 ≤ a ∧ a - (e + 1) < vs.length
      · have h3 : e ≤ a ∧ a - e < (v :: vs).length := by simp; omega
        have h4 : a - e = (a - (e + 1)) + 1 := by omega
        simp only [h2, h3, dif_pos, and_self]
        simp [h4]
      · have h3 : ¬ (e ≤ a ∧ a - e < (v :: vs).length) := by simp; omega
        rw [dif_neg h2, dif_neg h3, if_neg h1]

theorem Memory.read_writeList_of_not_mem (h : a < e ∨ e + vs.length ≤ a) :
    (m.writeList e vs).read a = m.read a := by
  induction vs generalizing m e with
  | nil => rfl
  | cons v vs ih =>
    simp only [List.length_cons] at h
    rw [Memory.writeList, ih (by omega), Memory.read_write_ne (by omega)]

end Sys2Proof.Machine
end

