-- ==== Sys2Proof/Laws/State.lean ====
section
/-! SUPPORT. What each update of a state leaves in each field. -/

namespace Sys2Proof.Machine

variable (s : State) (st : BitVec 2) (n : BitVec 8)

@[simp] theorem State.finish_issued : (s.finish st n).issued = s.issued := rfl
@[simp] theorem State.finish_status : (s.finish st n).status = st := rfl
@[simp] theorem State.finish_count : (s.finish st n).count = n := rfl
@[simp] theorem State.finish_pk : (s.finish st n).pk = s.pk := rfl
@[simp] theorem State.finish_up : (s.finish st n).up = s.up := rfl
@[simp] theorem State.finish_draws : (s.finish st n).draws = s.draws := rfl
@[simp] theorem State.finish_mem : (s.finish st n).mem = s.mem := rfl

@[simp] theorem State.raiseError_issued : (s.raiseError st).issued = s.issued := rfl
@[simp] theorem State.raiseError_status : (s.raiseError st).status = st := rfl
@[simp] theorem State.raiseError_count : (s.raiseError st).count = 0 := rfl
@[simp] theorem State.raiseError_pk : (s.raiseError st).pk = s.pk := rfl
@[simp] theorem State.raiseError_up : (s.raiseError st).up = s.up := rfl
@[simp] theorem State.raiseError_draws : (s.raiseError st).draws = s.draws := rfl
@[simp] theorem State.raiseError_mem : (s.raiseError st).mem = s.mem := rfl

@[simp] theorem State.releasePacker_issued : s.releasePacker.issued = s.issued := rfl
@[simp] theorem State.releasePacker_status : s.releasePacker.status = s.status := rfl
@[simp] theorem State.releasePacker_count : s.releasePacker.count = s.count := rfl
@[simp] theorem State.releasePacker_up : s.releasePacker.up = s.up := rfl
@[simp] theorem State.releasePacker_draws : s.releasePacker.draws = s.draws + 5 := rfl
@[simp] theorem State.releasePacker_mem : s.releasePacker.mem = s.mem := rfl

@[simp] theorem State.releaseUnpacker_issued : s.releaseUnpacker.issued = s.issued := rfl
@[simp] theorem State.releaseUnpacker_status : s.releaseUnpacker.status = s.status := rfl
@[simp] theorem State.releaseUnpacker_count : s.releaseUnpacker.count = s.count := rfl
@[simp] theorem State.releaseUnpacker_pk : s.releaseUnpacker.pk = s.pk := rfl
@[simp] theorem State.releaseUnpacker_draws : s.releaseUnpacker.draws = s.draws + 6 := rfl
@[simp] theorem State.releaseUnpacker_mem : s.releaseUnpacker.mem = s.mem := rfl

@[simp] theorem State.releaseResponse_issued : s.releaseResponse.issued = s.issued := rfl
@[simp] theorem State.releaseResponse_status :
    s.releaseResponse.status = Config.freeValue 2 s.draws := rfl
@[simp] theorem State.releaseResponse_count :
    s.releaseResponse.count = Config.freeValue 8 (s.draws + 1) := rfl
@[simp] theorem State.releaseResponse_pk : s.releaseResponse.pk = s.pk := rfl
@[simp] theorem State.releaseResponse_up : s.releaseResponse.up = s.up := rfl
@[simp] theorem State.releaseResponse_draws : s.releaseResponse.draws = s.draws + 2 := rfl
@[simp] theorem State.releaseResponse_mem : s.releaseResponse.mem = s.mem := rfl

end Sys2Proof.Machine
end

