-- ==== Sys2Proof/Laws/Unpack.lean ====
section
/-! SUPPORT. The unpacker: the extraction loop delivers the word's fields in one run of writes (R144, R145). -/

namespace Sys2Proof.Machine

/-- Field `j` of a word under width `w`, zero-extended (R145). -/
def fieldOf (word : Word) (w j : Nat) : Word := (word.extractLsb' (j * w) w).setWidth 64

theorem fieldMask_toNat {uw : BitVec 6} (h : uw.toNat ≤ 60) : (fieldMask uw).toNat = 2 ^ uw.toNat - 1 := by
  have h1 : 2 ^ uw.toNat ≤ 2 ^ 60 := Nat.pow_le_pow_right (by omega) h
  have h2 : 0 < 2 ^ uw.toNat := by positivity
  have h3 : ((1 : Word) <<< uw.toNat).toNat = 2 ^ uw.toNat := by
    rw [BitVec.toNat_shiftLeft, Nat.shiftLeft_eq, show (1 : Word).toNat = 1 from rfl]
    omega
  rw [fieldMask, BitVec.toNat_sub, h3, show (1 : Word).toNat = 1 from rfl]
  omega

/-- The shift register under the mask is the next field (R145). -/
theorem shifted_and_mask {word : Word} {uw : BitVec 6} (h : uw.toNat ≤ 60) (j : Nat) :
    (word >>> (j * uw.toNat)) &&& fieldMask uw = fieldOf word uw.toNat j := by
  apply BitVec.eq_of_toNat_eq
  rw [BitVec.toNat_and, fieldMask_toNat h, Nat.and_two_pow_sub_one_eq_mod, BitVec.toNat_ushiftRight,
    fieldOf, BitVec.toNat_setWidth, BitVec.extractLsb'_toNat]
  refine (Nat.mod_eq_of_lt ?_).symm
  refine (Nat.mod_lt _ (by positivity)).trans_le (Nat.pow_le_pow_right (by omega) (by omega))

/-- The loop delivers the fields not yet extracted, from slot `i` on, and stops at `UCNT`. -/
theorem unpackLoop_spec {out : OutBuf} {word : Word} (fuel : Nat) (r : UnpackRegs) (m : Memory)
    (huw : r.uw.toNat ≤ 60) (hmask : r.mask = fieldMask r.uw)
    (hsr : r.sr = word >>> (r.i.toNat * r.uw.toNat)) (hi : r.i ≤ r.ucnt)
    (hfuel : r.ucnt.toNat ≤ r.i.toNat + fuel) :
    (unpackLoop out fuel r m).2 = m.writeList (outElem out r.i.toNat)
        ((List.range' r.i.toNat (r.ucnt.toNat - r.i.toNat)).map (fieldOf word r.uw.toNat)) ∧
      (unpackLoop out fuel r m).1.ucnt = r.ucnt := by
  rw [BitVec.le_def] at hi
  induction fuel generalizing r m with
  | zero =>
    have : r.ucnt.toNat - r.i.toNat = 0 := by omega
    simp [unpackLoop, this, Memory.writeList]
  | succ fuel ih =>
    rw [unpackLoop]
    split
    · rename_i hlt
      rw [BitVec.lt_def] at hlt
      have hul := r.ucnt.isLt
      have hi1 : (r.i + 1).toNat = r.i.toNat + 1 := by rw [BitVec.toNat_add]; simp; omega
      have hn : r.ucnt.toNat - r.i.toNat = (r.ucnt.toNat - (r.i.toNat + 1)) + 1 := by omega
      obtain ⟨h1, h2⟩ := ih { r with sr := r.sr >>> r.uw.toNat, i := r.i + 1 }
        (m.write (outElem out r.i.toNat) (r.sr &&& r.mask)) huw hmask
        (by simp only [hsr, hi1, Nat.add_mul, Nat.one_mul, BitVec.shiftRight_add])
        (by simp only [hi1]; omega) (by simp only [hi1]; omega)
      refine ⟨?_, h2⟩
      rw [h1, hn, List.range'_succ, List.map_cons, Memory.writeList, hmask, hsr, shifted_and_mask huw]
      simp only [hi1, outElem, Nat.add_assoc]
    · rename_i hge
      rw [BitVec.lt_def] at hge
      have : r.ucnt.toNat - r.i.toNat = 0 := by omega
      simp [this, Memory.writeList]

theorem clampCount_toNat (s : Sel) (c : Nat) : (clampCount s c).toNat = min (romCount s).toNat c := by
  have := romCount_le s
  rw [clampCount, BitVec.toNat_ofNat, Nat.mod_eq_of_lt (by omega)]

/-- The values a word holds, slot 0 first (R51, R145). -/
def wordValues (word : Word) : List Word :=
  (List.range (romCount (selx word)).toNat).map (fieldOf word (romWidth (selx word)).toNat)

/-- The unpacker's shifting loop delivers what the slots of the word hold: the closed form of R145. -/
theorem unpackWord_eq (word : Word) (out : OutBuf) (s : State) :
    unpackWord word out s = deliverSlots (wordValues word) out s := by
  have hcl := clampCount_toNat (selx word) out.cap
  obtain ⟨h1, h2⟩ := unpackLoop_spec (out := out) (word := word) 240
    (UnpackRegs.start word out.cap) s.mem (romWidth_le _) rfl
    (by simp [UnpackRegs.start]) (by simp [UnpackRegs.start, BitVec.le_def])
    (by have := romCount_le (selx word); simp only [UnpackRegs.start, hcl]; simp; omega)
  have hvals : (List.range' 0 (clampCount (selx word) out.cap).toNat).map
      (fieldOf word (romWidth (selx word)).toNat) = (wordValues word).take out.cap := by
    rw [wordValues, ← List.map_take, hcl, List.take_range, Nat.min_comm, List.range_eq_range']
  have hi : (UnpackRegs.start word out.cap).i.toNat = 0 := rfl
  rw [hi, Nat.sub_zero] at h1
  rw [unpackWord, deliverSlots]
  simp only [h1, h2]
  simp only [outElem, Nat.add_zero, UnpackRegs.start, hvals]
  rw [clampCount, wordValues, List.length_map, List.length_range]

end Sys2Proof.Machine
end

