-- ==== Sys2Proof/Laws/Exec.lean ====
section
/-! SUPPORT. What each meaning can do, said once. -/

namespace Sys2Proof.Machine

variable {s : State} {input : InBuf} {outWord : Nat} {word : WordArg} {out : OutBuf} {values : List Word}

/-- Everything a well-formed PACK can do. -/
theorem execPack_cases (h : input.holds outWord = false) :
    ((∃ f, failsAt (inElems s.mem input) f) ∧ packRegs (inElems s.mem input) = none ∧
      execPack input outWord s = .next (s.raiseError Status.valueTooLarge).releasePacker) ∨
    ∃ r, PackDone (inElems s.mem input) r ∧ packRegs (inElems s.mem input) = some r ∧
      execPack input outWord s =
        .next (({ s with mem := s.mem.write outWord (packedWord r) } : State).finish
          Status.ok r.cnt).releasePacker := by
  rcases packRegs_cases (inElems s.mem input) with ⟨hnone, hf⟩ | ⟨r, hsome, hr⟩
  · exact .inl ⟨hf, hnone, by simp [execPack, h, hnone]⟩
  · exact .inr ⟨r, hr, hsome, by simp [execPack, h, hsome]⟩

/-- Everything UNPACK can do. -/
theorem execUnpack_eq :
    execUnpack word out s = .next (deliverSlots (wordValues (wordValue s.mem word)) out s) := by
  rw [execUnpack, unpackWord_eq]

@[simp] theorem wordValues_length {w : Word} : (wordValues w).length = (romCount (selx w)).toNat := by
  simp [wordValues]

@[simp] theorem slotValues_length {width n : Nat} {slots : Vector (BitVec width) n} :
    (slotValues slots).length = n := by
  simp [slotValues]

theorem mem_outElems {e n : Nat} : e ∈ outElems out n ↔ out.base ≤ e ∧ e - out.base < n := by
  simp only [outElems, outElem, List.mem_map, List.mem_range]
  exact ⟨fun ⟨k, hk, he⟩ => by omega, fun ⟨h1, h2⟩ => ⟨e - out.base, h2, by omega⟩⟩

/-- Elements outside the delivered ones keep their value (R150). -/
theorem deliverSlots_read_other {e : Nat} (he : e ∉ outElems out (min values.length out.cap)) :
    (deliverSlots values out s).mem.read e = s.mem.read e := by
  rw [mem_outElems] at he
  refine Memory.read_writeList_of_not_mem ?_
  rw [List.length_take, Nat.min_comm]
  omega

/-- What the unpacker delivers, where the values are no more than a count can say. -/
theorem deliverSlots_delivered (hm : s.mem.wf) (hlen : values.length ≤ 240) :
    s.delivered (deliverSlots values out s) values out := by
  refine ⟨rfl, ?_, fun k hk hcap => ?_, fun e he => deliverSlots_read_other he, rfl, rfl⟩
  · simp [deliverSlots]; omega
  · have : (deliverSlots values out s).mem.read (outElem out k) =
        (s.mem.writeList out.base (values.take out.cap)).read (outElem out k) := rfl
    rw [this, Memory.read_writeList hm, dif_pos (by simp [outElem]; omega)]
    simp [outElem]

theorem deliverSlots_wf (hm : s.mem.wf) : (deliverSlots values out s).mem.wf := Memory.wf_writeList hm

theorem State.drawElems_wf {es : List Nat} (hm : s.mem.wf) : (s.drawElems es).mem.wf := by
  induction es generalizing s with
  | nil => exact hm
  | cons e es ih => exact ih (s := { s with mem := _, draws := _ }) (Memory.wf_write hm)

@[simp] theorem State.drawElems_issued {es : List Nat} : (s.drawElems es).issued = s.issued := by
  induction es generalizing s with
  | nil => rfl
  | cons e es ih => rw [State.drawElems, ih]

end Sys2Proof.Machine
end

