-- ==== Sys2Proof/Laws/PerInstr.lean ====
section
/-! SUPPORT. Per instruction: its encoding carries the fixed bits of its row of the opcode table. -/

namespace Sys2Proof.Laws.RowMatch

/-- The instruction's raw form carries the `match` bits of its row of spec/opcode_table.json (R55, R57). -/
def Statement (i : Instr) : Prop := (encode i).rowBits = i.rowBits

variable {out : OutBuf}

theorem layout_slots {width n : Nat} {slots : Vector (BitVec width) n} {s : Sel} (hw : 0 < width)
    (hn : n * width ≤ 60) : (Request.word (encodeSlots s slots) out).rowBits = .layout s :=
  congrArg RowBits.layout (selx_encodeSlots hw hn)

theorem layout_slots_unused {width n : Nat} {slots : Vector (BitVec width) n} {s : Sel} {unused : BitVec 4}
    (hw : 0 < width) (hn : n * width ≤ 60) :
    (Request.word (encodeSlots s slots ||| (unused.setWidth 64 <<< 56)) out).rowBits = .layout s := by
  refine congrArg RowBits.layout (selx_or_of_lt (fun b hb => ?_) (selx_encodeSlots hw hn))
  rw [BitVec.getLsbD_shiftLeft, BitVec.getLsbD_setWidth, BitVec.getLsbD_of_ge unused _ (by omega)]
  simp

theorem layout_unused {s : Sel} {unused : BitVec 60} :
    (Request.word (placeSel s ||| unused.setWidth 64) out).rowBits = .layout s := by
  refine congrArg RowBits.layout (selx_or_of_lt (fun b hb => ?_) ?_)
  · rw [BitVec.getLsbD_setWidth, BitVec.getLsbD_of_ge unused _ hb]; simp
  · revert s; decide

theorem wordSel0 (unused : BitVec 60) (out : OutBuf) : Statement (.wordSel0 unused out) := layout_unused
theorem wordSel1 (unused : BitVec 60) (out : OutBuf) : Statement (.wordSel1 unused out) := layout_unused
theorem wordSel2 (slots : Vector (BitVec 1) 60) (out : OutBuf) : Statement (.wordSel2 slots out) :=
  layout_slots (by decide) (by decide)
theorem wordSel3 (slots : Vector (BitVec 2) 30) (out : OutBuf) : Statement (.wordSel3 slots out) :=
  layout_slots (by decide) (by decide)
theorem wordSel4 (slots : Vector (BitVec 3) 20) (out : OutBuf) : Statement (.wordSel4 slots out) :=
  layout_slots (by decide) (by decide)
theorem wordSel5 (slots : Vector (BitVec 4) 15) (out : OutBuf) : Statement (.wordSel5 slots out) :=
  layout_slots (by decide) (by decide)
theorem wordSel6 (slots : Vector (BitVec 5) 12) (out : OutBuf) : Statement (.wordSel6 slots out) :=
  layout_slots (by decide) (by decide)
theorem wordSel7 (slots : Vector (BitVec 6) 10) (out : OutBuf) : Statement (.wordSel7 slots out) :=
  layout_slots (by decide) (by decide)
theorem wordSel8 (slots : Vector (BitVec 7) 8) (unused : BitVec 4) (out : OutBuf) :
    Statement (.wordSel8 slots unused out) := layout_slots_unused (by decide) (by decide)
theorem wordSel9 (slots : Vector (BitVec 8) 7) (unused : BitVec 4) (out : OutBuf) :
    Statement (.wordSel9 slots unused out) := layout_slots_unused (by decide) (by decide)
theorem wordSel10 (slots : Vector (BitVec 10) 6) (out : OutBuf) : Statement (.wordSel10 slots out) :=
  layout_slots (by decide) (by decide)
theorem wordSel11 (slots : Vector (BitVec 12) 5) (out : OutBuf) : Statement (.wordSel11 slots out) :=
  layout_slots (by decide) (by decide)
theorem wordSel12 (slots : Vector (BitVec 15) 4) (out : OutBuf) : Statement (.wordSel12 slots out) :=
  layout_slots (by decide) (by decide)
theorem wordSel13 (slots : Vector (BitVec 20) 3) (out : OutBuf) : Statement (.wordSel13 slots out) :=
  layout_slots (by decide) (by decide)
theorem wordSel14 (slots : Vector (BitVec 30) 2) (out : OutBuf) : Statement (.wordSel14 slots out) :=
  layout_slots (by decide) (by decide)
theorem wordSel15 (slots : Vector (BitVec 60) 1) (out : OutBuf) : Statement (.wordSel15 slots out) :=
  layout_slots (by decide) (by decide)
theorem pack (input : InBuf) (outWord : Nat) : Statement (.pack input outWord) := rfl
theorem unpack (word : WordArg) (out : OutBuf) : Statement (.unpack word out) := rfl
theorem countPacked (word : WordArg) : Statement (.countPacked word) := rfl
theorem illegalCommand : Statement .illegalCommand := rfl

end Sys2Proof.Laws.RowMatch
end

