-- ==== Sys2Proof/Laws/System.lean ====
section
/-! SUPPORT. Disjointness of two commands, operands of finite width, and latched `WORD` operands. -/

namespace Sys2Proof

open Machine

theorem Instr.mem_writable {i : Instr} {e : Nat} : e ∈ i.writable ↔ i.mayWrite e = true := by
  have hout (o : OutBuf) : e ∈ List.range' o.base o.cap ↔ o.holds e = true := by
    simp [OutBuf.holds, List.mem_range'_1]
  have hslot (outWord : Nat) : e ∈ [outWord] ↔ decide (outWord = e) = true := by simp [eq_comm]
  cases i <;> first | exact hout _ | exact hslot _ | exact ⟨nofun, nofun⟩

/-- The computed test is the relation of R41. -/
theorem Instr.apart_iff {i j : Instr} : i.apart j = true ↔ i.buffersDisjoint j := by
  simp only [Instr.apart, Bool.and_eq_true, List.all_eq_true, Instr.mem_writable, Instr.buffersDisjoint,
    Bool.not_eq_true', Bool.not_eq_true, forall_and, and_assoc]

namespace Machine

/-- The scan looks at no more than 241 elements (R126). -/
theorem scan_take {xs : List Word} {r : PackRegs} {n : Nat} (hn : 241 ≤ n + r.cnt.toNat)
    (hc : r.cnt.toNat ≤ 240) : scan (xs.take n) r = scan xs r := by
  induction xs generalizing r n with
  | nil => simp
  | cons v xs ih =>
    obtain ⟨n, rfl⟩ : ∃ m, n = m + 1 := ⟨n - 1, by omega⟩
    simp only [List.take_succ_cons, scan]
    split
    · rfl
    · rename_i s _
      split
      · rfl
      · rename_i hlt
        have h1 : r.cnt.toNat < (romCount (maxSel r.sel s)).toNat := by
          simpa [BitVec.le_def] using hlt
        have h2 := romCount_le (maxSel r.sel s)
        have h3 : (r.cnt + 1).toNat = r.cnt.toNat + 1 := toNat_add_one hc
        exact ih (by simp only [h3]; omega) (by simp only [h3]; omega)

/-- PACK's registers depend on the first 241 elements alone (R126). -/
theorem packRegs_take {xs : List Word} {n : Nat} (hn : 241 ≤ n) : packRegs (xs.take n) = packRegs xs := by
  have hs : scan (xs.take n) PackRegs.start = scan xs PackRegs.start :=
    scan_take (by simpa [PackRegs.start] using hn) (by simp [PackRegs.start])
  rcases packRegs_cases xs with ⟨h, -⟩ | ⟨r, h, hr⟩
  · unfold packRegs at h ⊢
    rw [hs]
    split at h
    · cases h
    · rfl
  · have hcnt : r.cnt.toNat ≤ 240 := hr.fits.trans (romCount_le _)
    unfold packRegs at h ⊢
    rw [hs]
    split at h
    · rename_i r' _
      injection h with h
      have hc' : (widen r').cnt.toNat ≤ n := by
        have : (widen r').cnt = r.cnt := by rw [← h]; rfl
        rw [this]; omega
      simp only [accumulate, List.take_take, Nat.min_eq_left hc']
    · cases h

theorem inElems_saturate {m : Memory} {input : InBuf} {bits : Nat} :
    inElems m (input.saturate bits) = (inElems m input).take (2 ^ bits - 1) := by
  cases input with
  | slice base len =>
    simp only [InBuf.saturate, inElems]
    rw [← List.map_take]
    congr 1
    apply List.ext_getElem <;> simp [Nat.min_comm]
  | values vs => rfl

theorem holds_saturate {input : InBuf} {bits e : Nat} (h : input.holds e = false) :
    (input.saturate bits).holds e = false := by
  cases input with
  | slice base len => simp [InBuf.saturate, InBuf.holds] at h ⊢; omega
  | values vs => rfl

theorem deliverSlots_saturate {values : List Word} {out : OutBuf} {s : State} {bits : Nat}
    (hb : 8 ≤ bits) (hlen : values.length ≤ 240) :
    deliverSlots values (out.saturate bits) s = deliverSlots values out s := by
  have h255 : 2 ^ 8 ≤ 2 ^ bits := Nat.pow_le_pow_right (by omega) hb
  have hmin : min values.length (min out.cap (2 ^ bits - 1)) = min values.length out.cap := by omega
  have htake : values.take (min out.cap (2 ^ bits - 1)) = values.take out.cap := by
    rcases Nat.le_total out.cap (2 ^ bits - 1) with h | h
    · rw [Nat.min_eq_left h]
    · rw [Nat.min_eq_right h, List.take_of_length_le (by omega), List.take_of_length_le (by omega)]
  simp only [deliverSlots, OutBuf.saturate, hmin, htake]

/-- Behind a length operand of any width PACK's registers are those of the exact input (D11). -/
theorem packRegs_behind {m : Memory} {input : InBuf} {bits : Nat} :
    packRegs (inElems m (input.behind bits)) = packRegs (inElems m input) := by
  unfold InBuf.behind
  split
  · rename_i hb
    have h255 : 2 ^ 8 ≤ 2 ^ bits := Nat.pow_le_pow_right (by omega) hb
    rw [inElems_saturate, packRegs_take (by omega)]
  · rfl

theorem holds_behind {input : InBuf} {bits e : Nat} (h : input.holds e = false) :
    (input.behind bits).holds e = false := by
  unfold InBuf.behind
  split
  · exact holds_saturate h
  · exact h

/-- Behind a capacity operand of any width the unpacker delivers what the exact capacity takes (D12). -/
theorem deliverSlots_behind {values : List Word} {out : OutBuf} {s : State} {bits : Nat}
    (hlen : values.length ≤ 240) :
    deliverSlots values (out.behind bits) s = deliverSlots values out s := by
  unfold OutBuf.behind
  split
  · rename_i hb
    exact deliverSlots_saturate hb hlen
  · rfl

end Machine

/-- Well-formedness does not depend on the operand widths (R41, D11). -/
@[simp] theorem Request.latchedBy_wellFormed {p : Params} {r : Request} :
    (decode (r.latchedBy p)).wellFormed = (decode r).wellFormed := by
  unfold Request.latchedBy
  split
  case isFalse => rfl
  case isTrue hw =>
    rw [hw]
    cases r with
    | word w out =>
      unfold decode decodeWord
      dsimp only
      split <;> rfl
    | command op ops =>
      obtain rfl | rfl | rfl | rfl : op = 0 ∨ op = 1 ∨ op = 2 ∨ op = 3 := by
        clear hw; revert op; decide
      · have h : ops.inBuf.holds ops.outWord = false := by
          simpa [decode, decodeCommand, Instr.wellFormed] using hw
        simp [decode, decodeCommand, Instr.wellFormed, holds_behind h]
      · rfl
      · rfl
      · rfl

/-! ## A request with its `WORD` latched -/

theorem Request.latchWord_cases (r : Request) :
    (∃ a w, ∀ m, decode (r.latchWord m) = .pack a w ∧ decode r = .pack a w) ∨
    (∃ word out, ∀ m, decode (r.latchWord m) = .unpack (.lit (wordValue m word)) out ∧
      decode r = .unpack word out) ∨
    (∃ word, ∀ m, decode (r.latchWord m) = .countPacked (.lit (wordValue m word)) ∧
      decode r = .countPacked word) ∨
    (∀ m, decode (r.latchWord m) = decode r ∧ ∀ e, (decode r).mayRead e = (decode r).readsBuffer e) := by
  cases r with
  | word w out =>
    refine .inr (.inr (.inr fun m => ⟨rfl, fun e => ?_⟩))
    unfold decode decodeWord
    dsimp only
    split <;> rfl
  | command op ops =>
    obtain rfl | rfl | rfl | rfl : op = 0 ∨ op = 1 ∨ op = 2 ∨ op = 3 := by
      revert op; decide
    · exact .inl ⟨_, _, fun m => ⟨rfl, rfl⟩⟩
    · exact .inr (.inl ⟨_, _, fun m => ⟨rfl, rfl⟩⟩)
    · exact .inr (.inr (.inl ⟨_, fun m => ⟨rfl, rfl⟩⟩))
    · exact .inr (.inr (.inr fun m => ⟨rfl, fun e => rfl⟩))

variable {r : Request} {m : Memory} {e : Nat}

/-- With its `WORD` latched, a command reads its `IN` buffer alone. -/
theorem Request.latchWord_mayRead : (decode (r.latchWord m)).mayRead e = (decode r).readsBuffer e := by
  rcases r.latchWord_cases with ⟨a, w, h⟩ | ⟨word, out, h⟩ | ⟨word, h⟩ | h
  · rw [(h m).1, (h m).2]; rfl
  · rw [(h m).1, (h m).2]; rfl
  · rw [(h m).1, (h m).2]; rfl
  · rw [(h m).1, (h m).2]

theorem Request.latchWord_mayWrite : (decode (r.latchWord m)).mayWrite e = (decode r).mayWrite e := by
  rcases r.latchWord_cases with ⟨a, w, h⟩ | ⟨word, out, h⟩ | ⟨word, h⟩ | h
  · rw [(h m).1, (h m).2]
  · rw [(h m).1, (h m).2]; rfl
  · rw [(h m).1, (h m).2]; rfl
  · rw [(h m).1]

theorem Request.latchWord_wellFormed : (decode (r.latchWord m)).wellFormed = (decode r).wellFormed := by
  rcases r.latchWord_cases with ⟨a, w, h⟩ | ⟨word, out, h⟩ | ⟨word, h⟩ | h
  · rw [(h m).1, (h m).2]
  · rw [(h m).1, (h m).2]; rfl
  · rw [(h m).1, (h m).2]; rfl
  · rw [(h m).1]

/-- Latching the `WORD` first changes nothing that the command does from the same storage (R13). -/
theorem Machine.exec_latchWord (s : State) : exec (decode (r.latchWord s.mem)) s = exec (decode r) s := by
  rcases r.latchWord_cases with ⟨a, w, h⟩ | ⟨word, out, h⟩ | ⟨word, h⟩ | h
  · rw [(h s.mem).1, (h s.mem).2]
  · rw [(h s.mem).1, (h s.mem).2]; rfl
  · rw [(h s.mem).1, (h s.mem).2]; rfl
  · rw [(h s.mem).1]

/-- Commands on disjoint buffers are independent once their `WORD` operands are latched. -/
theorem Request.latchWord_disjoint {q : Request} (h : (decode r).buffersDisjoint (decode q)) :
    (decode (r.latchWord m)).disjoint (decode (q.latchWord m)) := by
  intro e
  simpa only [Request.latchWord_mayWrite, Request.latchWord_mayRead] using h e

end Sys2Proof
end

