-- ==== Sys2Proof/Tests/Slice0.lean ====
section
/-! SUPPORT. Tests of the model and witnesses of the statements' hypotheses. Expected results come from the
vectors of spec/95_test_vectors.md (their section is named) or from the layouts of spec/30_encoding.md R55. -/

namespace Sys2Proof.Tests

open Machine

/-! ## Well-formedness -/

/-- R41: the slot is element 3 of an input that holds elements 2 to 4. -/
theorem test_wellFormed_refuses_overlap : (Instr.pack (.slice 2 3) 3).wellFormed = false := by decide
theorem test_wellFormed_refuses_last_element : (Instr.pack (.slice 2 3) 4).wellFormed = false := by decide
theorem test_wellFormed_takes_neighbours :
    (Instr.pack (.slice 2 3) 1).wellFormed = true ∧ (Instr.pack (.slice 2 3) 5).wellFormed = true := by decide

/-! ## Decoding, one word per row, written out from R55 and R57 -/

theorem test_decode_sel0 :
    decodeTableWord 64 0x0123456789ABCDEF = some (.wordSel0 0x123456789ABCDEF ⟨0, 0⟩) := by decide
theorem test_decode_sel1 :
    decodeTableWord 64 0x1FFFFFFFFFFFFFFE = some (.wordSel1 0xFFFFFFFFFFFFFFE ⟨0, 0⟩) := by decide
theorem test_decode_sel2 :
    decodeTableWord 64 (2 * 2 ^ 60 + 2 ^ 59 + 2 ^ 1) =
      some (.wordSel2 (Vector.ofFn fun i => if i.val = 1 ∨ i.val = 59 then 1 else 0) ⟨0, 0⟩) := by decide
theorem test_decode_sel3 :
    decodeTableWord 64 (3 * 2 ^ 60 + 2 * 4 ^ 29 + 3 * 4 ^ 2 + 2 * 4 + 1) =
      some (.wordSel3 (Vector.ofFn fun i =>
        if i.val = 29 then 2 else ([1, 2, 3] : List (BitVec 2)).getD i 0) ⟨0, 0⟩) := by decide
theorem test_decode_sel4 :
    decodeTableWord 64 (4 * 2 ^ 60 + 6 * 8 ^ 19 + 7 * 8 + 5) =
      some (.wordSel4 (Vector.ofFn fun i =>
        if i.val = 19 then 6 else ([5, 7] : List (BitVec 3)).getD i 0) ⟨0, 0⟩) := by decide
theorem test_decode_sel5 :
    decodeTableWord 64 0x5FEDCBA987654321 =
      some (.wordSel5 #v[1, 2, 3, 4, 5, 6, 7, 8, 9, 10, 11, 12, 13, 14, 15] ⟨0, 0⟩) := by decide
theorem test_decode_sel6 :
    decodeTableWord 64 (6 * 2 ^ 60 + 30 * 32 ^ 11 + 17 * 32 + 9) =
      some (.wordSel6 #v[9, 17, 0, 0, 0, 0, 0, 0, 0, 0, 0, 30] ⟨0, 0⟩) := by decide
theorem test_decode_sel7 :
    decodeTableWord 64 (7 * 2 ^ 60 + 33 * 64 ^ 9 + 62 * 64 + 1) =
      some (.wordSel7 #v[1, 62, 0, 0, 0, 0, 0, 0, 0, 33] ⟨0, 0⟩) := by decide
theorem test_decode_sel8 :
    decodeTableWord 64 (8 * 2 ^ 60 + 10 * 2 ^ 56 + 65 * 128 ^ 7 + 76 * 128 + 2) =
      some (.wordSel8 #v[2, 76, 0, 0, 0, 0, 0, 65] 10 ⟨0, 0⟩) := by decide
theorem test_decode_sel9 :
    decodeTableWord 64 0x9A8100000000FF01 =
      some (.wordSel9 #v[1, 255, 0, 0, 0, 0, 0x81] 10 ⟨0, 0⟩) := by decide
/-- §4 of the vectors. -/
theorem test_decode_sel10 :
    decodeTableWord 64 0xA0123456789ABCDE =
      some (.wordSel10 #v[222, 687, 905, 345, 564, 4] ⟨0, 0⟩) := by decide
theorem test_decode_sel11 :
    decodeTableWord 64 0xBFED004003002801 =
      some (.wordSel11 #v[0x801, 0x002, 0x003, 0x004, 0xFED] ⟨0, 0⟩) := by decide
/-- §4 of the vectors. -/
theorem test_decode_sel12 :
    decodeTableWord 64 0xC123456789ABCDEF = some (.wordSel12 #v[19951, 4951, 5534, 2330] ⟨0, 0⟩) := by decide
theorem test_decode_sel13 :
    decodeTableWord 64 0xD123456789ABCDEF =
      some (.wordSel13 #v[0xBCDEF, 0x6789A, 0x12345] ⟨0, 0⟩) := by decide
/-- §3.2 of the vectors. -/
theorem test_decode_sel14 :
    decodeTableWord 64 0xE004000000000001 = some (.wordSel14 #v[1, 0x100000] ⟨0, 0⟩) := by decide
/-- §4 of the vectors. -/
theorem test_decode_sel15 :
    decodeTableWord 64 0xF800000000000000 = some (.wordSel15 #v[0x800000000000000] ⟨0, 0⟩) := by decide
theorem test_decode_commands :
    decodeTableWord 8 0 = some (.pack (.slice 0 0) 0) ∧
    decodeTableWord 8 1 = some (.unpack (.lit 0) ⟨0, 0⟩) ∧
    decodeTableWord 8 2 = some (.countPacked (.lit 0)) ∧
    decodeTableWord 8 3 = some .illegalCommand := by decide
theorem test_decode_rejects_by_name :
    decodeBits 63 0 = .error (.noEncodingOfWidth 63) ∧ decodeBits 9 0 = .error (.noEncodingOfWidth 9) ∧
    decodeBits 0 0 = .error (.noEncodingOfWidth 0) := by
  refine ⟨rfl, rfl, rfl⟩

/-! ## The resolver at the boundaries of its rows (§2.2) -/

theorem test_resolve_boundaries :
    [0, 1, 2, 3, 4, 7, 8, 15, 16, 31, 32, 63, 64, 127, 128, 255].map resolve =
      [0, 2, 3, 3, 4, 4, 5, 5, 6, 6, 7, 7, 8, 8, 9, 9].map .sel := by decide
theorem test_resolve_boundaries_wide :
    [256, 1023, 1024, 4095, 4096, 32767, 32768, 0xFFFFF, 0x100000, 0x3FFFFFFF, 0x40000000,
      0xFFFFFFFFFFFFFFF].map resolve =
      [10, 10, 11, 11, 12, 12, 13, 13, 14, 14, 15, 15].map .sel := by decide
theorem test_resolve_too_large :
    resolve 0x1000000000000000 = .tooLarge ∧ resolve 0xFFFFFFFFFFFFFFFF = .tooLarge := by decide

/-! ## Commands -/

/-- A state whose storage holds the listed values from element `e` on. -/
def holding (e : Nat) (vs : List Word) : State :=
  { State.reset with mem := Memory.writeList [] e vs }

/-- Status, count and the listed elements after a command. -/
def look (o : Host.Outcome State Fault Refusal) (es : List Nat) : Option (BitVec 2 × BitVec 8 × List Word) :=
  match o with
  | .next t => some (t.status, t.count, es.map t.mem.read)
  | .fault _ => none
  | .refused _ => none

/-- §7 P5: an early stop with a loose fit. -/
theorem test_pack_loose_fit_after_early_stop :
    look (exec (.pack (.values (List.replicate 9 63 ++ [255])) 0) State.reset) [0] =
      some (0b00, 9, [0x703FFFFFFFFFFFFF]) := by decide +kernel
/-- §3.4 and §7 P3: the sentinel in element 9 is kept. -/
theorem test_pack_fails_and_keeps_slot :
    look (exec (.pack (.slice 0 6) 9) (holding 0 [2, 76, 3, 0x1000000000000000, 7, 2, 0, 0, 0, 0xDEADBEEFDEADBEEF]))
      [9] = some (0b01, 0, [0xDEADBEEFDEADBEEF]) := by decide +kernel
/-- §7 P4: widening from selector 2 to selector 11. -/
theorem test_step_pack_widens :
    look (step { holding 0 [1, 1, 1, 1, 1, 0x800000000000000] with
      issued := [.issue (.command 0b00 { Operands.zero with inBuf := .slice 0 6, outWord := 7 })] }) [7] =
      some (0b00, 5, [0xB001001001001001]) := by decide +kernel
/-- §4: padding zeros, and the element past them is kept. -/
theorem test_unpack_pads :
    look (exec (.unpack (.lit 0x900000000000FF01) ⟨0, 8⟩) (holding 0 (List.replicate 8 0xAAAAAAAAAAAAAAAA)))
      [0, 1, 2, 6, 7] = some (0b00, 7, [1, 255, 0, 0, 0xAAAAAAAAAAAAAAAA]) := by decide +kernel
/-- §1.6: truncation, with the word in a host variable. -/
theorem test_unpack_truncates :
    look (exec (.unpack (.elem 9) ⟨0, 3⟩) (holding 3 [0xAAAAAAAAAAAAAAAA, 0, 0, 0, 0, 0, 0x8000000020E0E602]))
      [0, 1, 2, 3] = some (0b00, 3, [2, 76, 3, 0xAAAAAAAAAAAAAAAA]) := by decide +kernel
/-- §5. -/
theorem test_countPacked :
    look (exec (.countPacked (.lit 0x1FFFFFFFFFFFFFFF)) State.reset) [] = some (0b00, 120, []) := by
  decide +kernel
/-- §5 and §7 P3. -/
theorem test_illegalCommand :
    look (exec .illegalCommand (holding 0 [5])) [0] = some (0b10, 0, [5]) := by decide +kernel

/-! ## Layout rows: a word into a buffer (§4, or R55) -/

/-- The row of a word, run on a buffer at element 0 filled with a sentinel. -/
def runRow (w : Word) (cap : Nat) (es : List Nat) : Option (BitVec 2 × BitVec 8 × List Word) :=
  look (exec (decodeWord w ⟨0, cap⟩) (holding 0 [7, 7, 7, 7, 7, 7, 7, 7])) es

theorem test_row_sel0 : runRow 0x0123456789ABCDEF 300 [0, 7] = some (0b00, 240, [0, 0]) := by decide +kernel
theorem test_row_sel1 : runRow 0x1FFFFFFFFFFFFFFF 5 [0, 4, 5] = some (0b00, 5, [0, 0, 7]) := by decide +kernel
theorem test_row_sel2 : runRow 0x2FFFFFFFFFFFFFFF 61 [0, 59, 60] = some (0b00, 60, [1, 1, 0]) := by decide +kernel
theorem test_row_sel3 : runRow 0x3000000000000039 30 [0, 1, 2, 3] = some (0b00, 30, [1, 2, 3, 0]) := by decide +kernel
theorem test_row_sel4 : runRow 0x4000000000000005 20 [0, 1] = some (0b00, 20, [5, 0]) := by decide +kernel
theorem test_row_sel5 : runRow 0x5FEDCBA987654321 2 [0, 1, 2] = some (0b00, 2, [1, 2, 7]) := by decide +kernel
theorem test_row_sel6 : runRow 0x6FFFFFFFFFFFFFFF 12 [11, 12] = some (0b00, 12, [31, 0]) := by decide +kernel
theorem test_row_sel7 : runRow 0x703FFFFFFFFFFFFF 10 [8, 9] = some (0b00, 10, [63, 0]) := by decide +kernel
theorem test_row_sel8 : runRow 0x8F00000020E0E602 8 [0, 1, 4, 7] = some (0b00, 8, [2, 76, 2, 0]) := by decide +kernel
theorem test_row_sel9 : runRow 0x9F0000000000FF01 7 [1, 6, 7] = some (0b00, 7, [255, 0, 7]) := by decide +kernel
theorem test_row_sel10 : runRow 0xA0123456789ABCDE 6 [0, 5, 6] = some (0b00, 6, [222, 4, 7]) := by decide +kernel
theorem test_row_sel11 : runRow 0xB001001001001001 5 [4, 5] = some (0b00, 5, [1, 7]) := by decide +kernel
theorem test_row_sel12 : runRow 0xC123456789ABCDEF 4 [0, 3] = some (0b00, 4, [19951, 2330]) := by decide +kernel
theorem test_row_sel13 : runRow 0xD00000FFFFFFFFFF 3 [1, 2] = some (0b00, 3, [1048575, 0]) := by decide +kernel
theorem test_row_sel14 : runRow 0xE000000040000001 2 [0, 1, 2] = some (0b00, 2, [1, 1, 7]) := by decide +kernel
theorem test_row_sel15 : runRow 0xFFFFFFFFFFFFFFFF 0 [0] = some (0b00, 0, [7]) := by decide +kernel

/-! ## The host's interface -/

theorem test_first_step_after_reset_runs_count_packed :
    response (step (State.reset.withFetchWord 8 2)) = some (0b00, 240) := by decide +kernel
theorem test_first_step_after_reset_runs_a_row :
    response (step (State.reset.withFetchWord 64 0x900000000000FF01)) = some (0b00, 0) := by decide +kernel

/-- R41: COUNT_PACKED of a word that a PACK at the same time replaces has the word latched, 0 (R161: 240). -/
theorem test_together_latches_word :
    (match System.together [0, 1]
        { params := ⟨8, 8, List.range 8, 2⟩
          mem := []
          blocks := [
            { State.reset.toBlock with issued := [.issue (.command 0b00 { Operands.zero with inBuf := .values [255], outWord := 2 })] },
            { State.reset.toBlock with issued := [.issue (.command 0b10 { Operands.zero with word := .elem 2 })] }] } with
      | .next sys => sys.blocks.map fun b => (b.status, b.count)
      | _ => []) = [(0b00, 1), (0b00, 240)] := by decide

/-! ## Witnesses: states and operands that meet the statements' hypotheses together -/

/-- Elements 0 and 1 hold a packable input; nothing is issued. -/
def packable : State := holding 0 [1, 255]
/-- Element 0 holds a value that is too large. -/
def tooLarge : State := holding 0 [0x1000000000000000]
/-- A PACK of elements 0 and 1 into element 2, on the command port. -/
def packRequest : Request := .command 0b00 { Operands.zero with inBuf := .slice 0 2, outWord := 2 }

theorem packable_wf : packable.mem.wf := by decide
theorem packable_input : inElems packable.mem (.slice 0 2) = [1, 255] := by decide
theorem packable_no_failure : ∀ f, ¬ failsAt (inElems packable.mem (.slice 0 2)) f := by
  rintro f ⟨⟨v, hv, hlarge⟩, -⟩
  have hv : v ∈ [(1 : Word), 255] := packable_input ▸ List.mem_of_getElem? hv
  have : v = 1 ∨ v = 255 := by simpa using hv
  rcases this with rfl | rfl <;> simp at hlarge
theorem completes_of_response {o : Host.Outcome State Fault Refusal} {st : BitVec 2} {n : BitVec 8}
    (h : response o = some (st, n)) : ∃ t, o = .next t ∧ t.status = st ∧ t.count = n := by
  cases o with
  | next t => exact ⟨t, rfl, by simpa [response] using h⟩
  | fault r => cases r
  | refused r => cases h

theorem packable_packs :
    ∃ t, exec (.pack (.slice 0 2) 2) packable = .next t ∧ t.status = 0b00 ∧ t.count = 2 :=
  completes_of_response (by decide)

theorem witness_EveryStepCompletesAndKeepsInvariant :
    ({ packable with issued := [.issue packRequest, .reset, .resetDuring packRequest, .store 3 9] } : State).Inv :=
  ⟨packable_wf, by decide⟩
theorem witness_StepRunsTheDecodedRequest :
    ({ packable with issued := [.issue packRequest] } : State).issued = .issue packRequest :: [] := rfl
theorem witness_IdleAndHostStoreSteps :
    packable.issued = [] ∧ packable.mem.wf ∧
      ({ packable with issued := [.store 3 9] } : State).issued = .store 3 9 :: [] :=
  ⟨rfl, packable_wf, rfl⟩
theorem witness_ResetTouchesOnlyTheBlock :
    ({ packable with issued := [.reset] } : State).issued = .reset :: [] := rfl
theorem witness_ResetDuringACommandDrawsItsOutputs :
    packable.mem.wf ∧ (decode packRequest).wellFormed = true ∧
      ({ packable with issued := [.resetDuring packRequest] } : State).issued = .resetDuring packRequest :: [] ∧
      storedElems (decode packRequest) packable = [2] :=
  ⟨packable_wf, by decide, rfl, by decide⟩
theorem witness_RomMeetsItsInvariants : (0 : Sel) ≤ 1 ∧ (1 : Sel) ≤ 1 ∧ (1 : Sel) < 2 ∧ (14 : Sel) < 15 := by decide
theorem witness_BitlenCountsSignificantBits : bitlen 255 = 8 ∧ (255 : Word).toNat < 2 ^ 8 := by decide
theorem witness_ResolverFollowsItsTable :
    (2 ^ (8 - 1) ≤ (128 : Word).toNat ∧ (255 : Word).toNat < 2 ^ 8) ∧
    (2 ^ 8 ≤ (256 : Word).toNat ∧ (1023 : Word).toNat < 2 ^ 10) ∧
    (2 ^ 10 ≤ (1024 : Word).toNat ∧ (4095 : Word).toNat < 2 ^ 12) ∧
    (2 ^ 12 ≤ (4096 : Word).toNat ∧ (32767 : Word).toNat < 2 ^ 15) ∧
    (2 ^ 15 ≤ (32768 : Word).toNat ∧ (0xFFFFF : Word).toNat < 2 ^ 20) ∧
    (2 ^ 20 ≤ (0x100000 : Word).toNat ∧ (0x3FFFFFFF : Word).toNat < 2 ^ 30) ∧
    (2 ^ 30 ≤ (0x40000000 : Word).toNat ∧ (0xFFFFFFFFFFFFFFF : Word).toNat < 2 ^ 60) ∧
    2 ^ 60 ≤ (0x1000000000000000 : Word).toNat := by decide
theorem witness_ResolverAnswersTheSmallestSelector : (0xFFFFFFFFFFFFFFF : Word).toNat < 2 ^ 60 := by decide
theorem witness_PackFailsAtAScannedElement :
    (InBuf.slice 0 1).holds 1 = false ∧ failsAt (inElems tooLarge.mem (.slice 0 1)) 0 :=
  ⟨by decide, ⟨0x1000000000000000, by decide, by simp⟩, 0, by decide, by simp⟩
theorem witness_PackWordHasItsClosedForm :
    packable.mem.wf ∧ (InBuf.slice 0 2).holds 2 = false ∧
      ∀ f, ¬ failsAt (inElems packable.mem (.slice 0 2)) f :=
  ⟨packable_wf, by decide, packable_no_failure⟩
theorem witness_PackKeepsItsAssemblyInvariants :
    packRegs [1, 255] = some { sel := 9, cnt := 2, idx := 2, stop := 0, acc := 0xFF01 } := by decide
theorem witness_PackConsumesTheLongestHeldPrefix :
    (InBuf.slice 0 2).holds 2 = false ∧ (∀ f, ¬ failsAt (inElems packable.mem (.slice 0 2)) f) ∧
      oneSelectorHolds ((inElems packable.mem (.slice 0 2)).take 2) :=
  ⟨by decide, packable_no_failure, 9, by decide, by
    rw [packable_input, show (romWidth 9).toNat = 8 from rfl]; simp⟩
theorem witness_PackIgnoresElementsItDoesNotScan :
    (InBuf.values [0x40000000, 1, 5]).holds 0 = false ∧
    inElems packable.mem (.values [0x40000000, 1, 5]) = [0x40000000] ++ 1 :: [5] ∧
    inElems packable.mem (.values [0x40000000, 1, 6]) = [0x40000000] ++ 1 :: [6] ∧
    ¬ oneSelectorHolds ([0x40000000] ++ [1]) :=
  ⟨rfl, rfl, rfl, by
    rintro ⟨s, hlen, hfit⟩
    have h30 : 2 ^ 30 < 2 ^ (romWidth s).toNat := hfit 0x40000000 (by simp)
    have hw : 30 < (romWidth s).toNat := (Nat.pow_lt_pow_iff_right (by omega)).mp h30
    have : ∀ s : Sel, 30 < (romWidth s).toNat → (romCount s).toNat < 2 := by decide
    exact absurd hlen (by simpa using this s hw)⟩
/-- The early-stop clause: §3.2, `[1, 2^30]` stops after one element. -/
theorem witness_PackChoosesItsSelector_stopped :
    response (exec (.pack (.values [1, 0x40000000]) 2) packable) = some (0b00, 1) := by decide
/-- The exhaustion clause. -/
theorem witness_PackChoosesItsSelector_exhausted :
    packable.mem.wf ∧ (InBuf.slice 0 2).holds 2 = false ∧
      (∀ f, ¬ failsAt (inElems packable.mem (.slice 0 2)) f) ∧
      response (exec (.pack (.slice 0 2) 2) packable) = some (0b00, 2) :=
  ⟨packable_wf, by decide, packable_no_failure, by decide⟩
theorem witness_PackMakesProgress :
    1 ≤ (inElems packable.mem (.slice 0 2)).length ∧
      ∃ t, exec (.pack (.slice 0 2) 2) packable = .next t ∧ t.status = 0b00 :=
  ⟨by decide, let ⟨t, h, hs, _⟩ := packable_packs; ⟨t, h, hs⟩⟩
theorem witness_PackOfEmptyInputWritesZero : packable.mem.wf ∧ inElems packable.mem (.slice 0 0) = [] :=
  ⟨packable_wf, rfl⟩
theorem witness_PackScanReadsWhatItNeeds :
    scan [1, 255] PackRegs.start = .closed { sel := 9, cnt := 2, idx := 2, stop := 0, acc := 0 } ∧
    scan [1, 0x40000000] PackRegs.start = .closed { sel := 2, cnt := 1, idx := 2, stop := 1, acc := 0 } ∧
    scan [0x1000000000000000] PackRegs.start = .tooLarge { sel := 0, cnt := 0, idx := 1, stop := 0, acc := 0 } := by
  decide
theorem witness_PackReplacesItsSlotUnread : packable.mem.wf ∧ (InBuf.slice 0 2).holds 2 = false :=
  ⟨packable_wf, by decide⟩
theorem witness_UnpackDeliversTheFields : packable.mem.wf := packable_wf
/-- The hypothesis under which a layout row completes. -/
theorem witness_ZeroWidthRowsDeliverZeros : packable.mem.wf := packable_wf
theorem witness_RowsWithUnusedBitsDeliverTheirSlots : packable.mem.wf := packable_wf
theorem witness_FullRowsDeliverTheirSlots : packable.mem.wf := packable_wf
theorem witness_UnpackIgnoresBitsOutsideItsSlots :
    selx (wordValue packable.mem (.lit 0x8F00000020E0E602)) = selx (wordValue packable.mem (.lit 0x8000000020E0E602)) ∧
    ∀ k, k < 8 * 7 → (0x8F00000020E0E602 : Word).getLsbD k = (0x8000000020E0E602 : Word).getLsbD k := by
  decide
theorem witness_PackThenUnpackGivesBackTheInput :
    packable.mem.wf ∧ ∃ t, exec (.pack (.slice 0 2) 2) packable = .next t ∧ t.status = 0b00 :=
  ⟨packable_wf, let ⟨t, h, hs, _⟩ := packable_packs; ⟨t, h, hs⟩⟩
/-- The capacity clauses at `C = c` and `C = c - 1`, for the packed `[1, 255]` of count 2. -/
theorem witness_PackThenUnpackGivesBackTheInput_capacities :
    (match exec (.pack (.slice 0 2) 2) packable with
      | .next t => [2, 1].map fun c => response (exec (.unpack (.elem 2) ⟨10, c⟩) t)
      | _ => []) = [some (0b00, 2), some (0b00, 1)] := by decide
theorem witness_LooseFitUnpacksToZeros :
    packable.mem.wf ∧ ∃ t, exec (.pack (.slice 0 2) 2) packable = .next t ∧ t.status = 0b00 :=
  witness_PackThenUnpackGivesBackTheInput
/-- §3.1, `[0]*120 ++ [1]`: an early stop whose count, 120, the table has. -/
theorem witness_CapacityBoundsThePackedCount :
    response (exec (.pack (.values (List.replicate 120 0 ++ [1])) 2) packable) = some (0b00, 120) ∧
      romCount 1 = 120 := by decide
theorem witness_StatusesAndTheirCauses :
    response (exec (.pack (.slice 0 2) 2) packable) = some (0b00, 2) ∧
    response (exec (.pack (.slice 0 1) 2) tooLarge) = some (0b01, 0) ∧
    response (exec .illegalCommand packable) = some (0b10, 0) := by decide
theorem witness_ErrorsArePrecise :
    ∃ t, exec .illegalCommand packable = .next t ∧ t.status ≠ 0b00 := ⟨_, rfl, by decide⟩
theorem witness_CommandsTouchOnlyTheirOutputs :
    (∃ t, exec (.pack (.slice 0 2) 2) packable = .next t ∧ t.status = 0b00 ∧ t.count = 2) ∧
    (2 ∈ storedElems (.pack (.slice 0 2) 2) packable ∧ 3 ∉ storedElems (.pack (.slice 0 2) 2) packable) :=
  ⟨packable_packs, by decide⟩
theorem witness_ResultsDependOnOperandsOnly :
    (Instr.pack (.slice 0 2) 2).wellFormed = true ∧ packable.mem.wf ∧ (holding 0 [1, 255, 77]).mem.wf ∧
      ∀ e, (Instr.pack (.slice 0 2) 2).mayRead e = true →
        packable.mem.read e = (holding 0 [1, 255, 77]).mem.read e := by
  refine ⟨by decide, packable_wf, by decide, fun e he => ?_⟩
  have he : 0 ≤ e ∧ e < 0 + 2 := by simpa [Instr.mayRead, InBuf.holds] using he
  have : e = 0 ∨ e = 1 := by omega
  rcases this with rfl | rfl <;> decide

/-- Two instances: one packs elements 0 and 1 into element 2, the other unpacks a literal into element 5. -/
def twoInstances : System where
  params := ⟨8, 8, List.range 8, 2⟩
  mem := packable.mem
  blocks := [{ State.reset.toBlock with issued := [.issue packRequest] },
    { State.reset.toBlock with
      issued := [.issue (.command 0b01 { Operands.zero with word := .lit 5, out := ⟨5, 1⟩ })] }]

theorem witness_DisjointCommandsOfTwoInstancesCommute :
    twoInstances.mem.wf ∧ twoInstances.blocks.length = 2 ∧ (decode packRequest).wellFormed = true ∧
      (decode packRequest).disjoint (.unpack (.lit 5) ⟨5, 1⟩) := by
  refine ⟨packable_wf, rfl, by decide, fun e => ?_⟩
  simp [packRequest, decode, decodeCommand, Instr.mayWrite, Instr.mayRead, Instr.outBuf?, OutBuf.holds, InBuf.holds]
  omega
/-- COUNT_PACKED of element 2 beside the PACK that writes it: disjoint buffers, for `WORD` is latched (R41). -/
theorem witness_ConcurrentDisjointCommandsHaveOneResult :
    twoInstances.mem.wf ∧ twoInstances.blocks.length = 2 ∧ (decode packRequest).wellFormed = true ∧
      (decode packRequest).buffersDisjoint (.countPacked (.elem 2)) :=
  ⟨packable_wf, rfl, by decide, Instr.apart_iff.mp (by decide)⟩
/-- The refused clause: both instances write element 2 (R41). -/
theorem witness_ConcurrentCommandsMustBeDisjoint_refused :
    (decode packRequest).apart (.unpack (.lit 5) ⟨2, 1⟩) = false := by decide
/-- The running clause. -/
theorem witness_ConcurrentCommandsMustBeDisjoint_runs :
    (decode packRequest).apart (.unpack (.lit 5) ⟨5, 1⟩) = true ∧
      twoInstances.blocks[0]?.bind Block.nextInstr? = some (decode packRequest) ∧
      twoInstances.blocks[1]?.bind Block.nextInstr? = some (.unpack (.lit 5) ⟨5, 1⟩) := by decide
/-- A command that reset interrupts counts as running. -/
theorem witness_ConcurrentCommandsMustBeDisjoint_interrupted :
    Block.nextInstr? { State.reset.toBlock with issued := [.resetDuring packRequest] } =
      some (decode packRequest) := by decide
/-- R41, D11: a slot among elements 255 to 299 of an input of 300 is refused behind a length operand of 8 bits too. -/
theorem test_overlap_is_judged_on_the_exact_length :
    (decode ((Request.command 0b00 { Operands.zero with inBuf := .slice 0 300, outWord := 280 }).latchedBy
      ⟨8, 8, List.range 8, 1⟩)).wellFormed = false := by decide
/-- A capacity of 300 behind operands of 8 and of 4 bits. -/
theorem witness_EightBitLengthsSuffice :
    (Request.word 0 ⟨0, 300⟩).latchedBy ⟨8, 8, List.range 8, 1⟩ = .word 0 ⟨0, 255⟩ ∧
      (Request.word 0 ⟨0, 300⟩).latchedBy ⟨4, 4, List.range 8, 1⟩ = .word 0 ⟨0, 300⟩ ∧
      (decode packRequest).wellFormed = true := by decide
theorem witness_InstancesShareOnlyTheStorage : ∃ sys', twoInstances.stepAt 0 = .next sys' := ⟨_, rfl⟩
/-- Little and big endian. -/
theorem witness_StoredBytesKeepTheWord :
    (Params.wf ⟨64, 64, [0, 1, 2, 3, 4, 5, 6, 7], 1⟩) ∧ (Params.wf ⟨64, 64, [7, 6, 5, 4, 3, 2, 1, 0], 1⟩) := by
  decide

end Sys2Proof.Tests
end

/-! What a command answers and writes depends on its operands and on the elements they let it read
(spec/10_state.md R10). -/

section

namespace Sys2Proof.Machine

variable {i : Instr} {s s' : State} {m m' : Memory} {input : InBuf} {outWord : Nat} {word : WordArg} {out : OutBuf}
  {values : List Word}

/-! ## What the operands read -/

theorem inElems_congr (h : ∀ e, input.holds e = true → m.read e = m'.read e) :
    inElems m input = inElems m' input := by
  cases input with
  | slice base len =>
    refine List.map_congr_left fun e he => h e ?_
    simpa [InBuf.holds, List.mem_range'_1] using he
  | values vs => rfl

theorem wordValue_congr (h : ∀ e, word = .elem e → m.read e = m'.read e) :
    wordValue m word = wordValue m' word := by
  cases word with
  | lit w => rfl
  | elem e => exact h e rfl

/-! ## What each instruction does and stores -/

/-- From every state the instruction delivers these values, no more than a count can say, into this buffer. -/
structure Delivers (i : Instr) (values : List Word) (out : OutBuf) : Prop where
  length_le : values.length ≤ 240
  exec_eq : ∀ s, exec i s = .next (deliverSlots values out s)
  storedElems_eq : ∀ s, storedElems i s = outElems out (min values.length out.cap)

theorem delivers_of_length {n : Nat} (hv : values.length = n) (hn : n ≤ 240)
    (hx : ∀ s, exec i s = .next (deliverSlots values out s))
    (hs : ∀ s, storedElems i s = outElems out (min n out.cap)) : Delivers i values out := by
  subst hv
  exact ⟨hn, hx, hs⟩

/-- An instruction is an EncodedWord layout, which delivers its slots from every state, or a command of R57. -/
theorem delivers_or_command (i : Instr) :
    (∃ values out, Delivers i values out) ∨ (∃ input outWord, i = .pack input outWord) ∨
      (∃ word out, i = .unpack word out) ∨ (∃ word, i = .countPacked word) ∨ i = .illegalCommand := by
  cases i with
  | wordSel0 | wordSel1 =>
    exact .inl ⟨_, _, delivers_of_length List.length_replicate (by decide) (fun _ => rfl) (fun _ => rfl)⟩
  | pack input outWord => exact .inr (.inl ⟨input, outWord, rfl⟩)
  | unpack word out => exact .inr (.inr (.inl ⟨word, out, rfl⟩))
  | countPacked word => exact .inr (.inr (.inr (.inl ⟨word, rfl⟩)))
  | illegalCommand => exact .inr (.inr (.inr (.inr rfl)))
  | _ => exact .inl ⟨_, _, delivers_of_length slotValues_length (by decide) (fun _ => rfl) (fun _ => rfl)⟩

theorem execPack_of_none (h : input.holds outWord = false) (hr : packRegs (inElems s.mem input) = none) :
    execPack input outWord s = .next (s.raiseError Status.valueTooLarge).releasePacker := by
  simp [execPack, h, hr]

theorem execPack_of_some {r : PackRegs} (h : input.holds outWord = false)
    (hr : packRegs (inElems s.mem input) = some r) :
    execPack input outWord s = .next (({ s with mem := s.mem.write outWord (packedWord r) } : State).finish
      Status.ok r.cnt).releasePacker := by
  simp [execPack, h, hr]

theorem storedElems_pack (h : input.holds outWord = false) :
    storedElems (.pack input outWord) s =
      if (packRegs (inElems s.mem input)).isSome then [outWord] else [] := by
  simp [storedElems, h]

theorem storedElems_unpack :
    storedElems (.unpack word out) s =
      outElems out (min (wordValues (wordValue s.mem word)).length out.cap) := by
  simp [storedElems, clampCount_toNat]

/-! ## Two states that agree on what the instruction reads -/

/-- From both states the instruction completes with one response, and stores one set of elements with one value in
each. -/
def SameResult (i : Instr) (s s' : State) : Prop :=
  ∃ t t', exec i s = .next t ∧ exec i s' = .next t' ∧ t.status = t'.status ∧ t.count = t'.count ∧
    storedElems i s = storedElems i s' ∧ ∀ e ∈ storedElems i s, t.mem.read e = t'.mem.read e

/-- A delivered element does not depend on the storage it is delivered into. -/
theorem deliverSlots_read_delivered (hm : s.mem.wf) (hm' : s'.mem.wf) (hlen : values.length ≤ 240) {e : Nat}
    (he : e ∈ outElems out (min values.length out.cap)) :
    (deliverSlots values out s).mem.read e = (deliverSlots values out s').mem.read e := by
  obtain ⟨k, hk, rfl⟩ := List.mem_map.1 he
  rw [List.mem_range, Nat.lt_min] at hk
  obtain ⟨-, -, hread, -⟩ := deliverSlots_delivered (out := out) hm hlen
  obtain ⟨-, -, hread', -⟩ := deliverSlots_delivered (out := out) hm' hlen
  rw [hread k hk.1 hk.2, hread' k hk.1 hk.2]

theorem sameResult_of_deliverSlots (hm : s.mem.wf) (hm' : s'.mem.wf) (hlen : values.length ≤ 240)
    (hx : exec i s = .next (deliverSlots values out s)) (hx' : exec i s' = .next (deliverSlots values out s'))
    (hs : storedElems i s = outElems out (min values.length out.cap))
    (hs' : storedElems i s' = outElems out (min values.length out.cap)) : SameResult i s s' :=
  ⟨_, _, hx, hx', rfl, rfl, hs.trans hs'.symm,
    fun _ he => deliverSlots_read_delivered hm hm' hlen (hs ▸ he)⟩

theorem sameResult_pack (hm : s.mem.wf) (hm' : s'.mem.wf) (h : input.holds outWord = false)
    (hin : inElems s.mem input = inElems s'.mem input) : SameResult (.pack input outWord) s s' := by
  have hstored : storedElems (.pack input outWord) s = storedElems (.pack input outWord) s' := by
    rw [storedElems_pack h, storedElems_pack h, hin]
  cases hr : packRegs (inElems s.mem input) with
  | none =>
    have hr' : packRegs (inElems s'.mem input) = none := hin ▸ hr
    refine ⟨_, _, execPack_of_none h hr, execPack_of_none h hr', rfl, rfl, hstored, fun e he => ?_⟩
    simp [storedElems_pack h, hr] at he
  | some r =>
    have hr' : packRegs (inElems s'.mem input) = some r := hin ▸ hr
    refine ⟨_, _, execPack_of_some h hr, execPack_of_some h hr', rfl, rfl, hstored, fun e he => ?_⟩
    obtain rfl : e = outWord := by simpa [storedElems_pack h, hr] using he
    simp [Memory.read_write_self hm, Memory.read_write_self hm']

theorem sameResult_unpack (hm : s.mem.wf) (hm' : s'.mem.wf)
    (hword : wordValue s.mem word = wordValue s'.mem word) : SameResult (.unpack word out) s s' := by
  refine sameResult_of_deliverSlots hm hm' (values := wordValues (wordValue s.mem word)) ?_
    execUnpack_eq ?_ storedElems_unpack ?_
  · simpa using romCount_le _
  · rw [hword]; exact execUnpack_eq
  · rw [hword]; exact storedElems_unpack

theorem sameResult_countPacked (hword : wordValue s.mem word = wordValue s'.mem word) :
    SameResult (.countPacked word) s s' :=
  ⟨_, _, rfl, rfl, rfl, by simp [hword], rfl, nofun⟩

theorem sameResult_illegalCommand : SameResult .illegalCommand s s' :=
  ⟨_, _, rfl, rfl, rfl, rfl, rfl, nofun⟩

/-- Settles O43: a layout reads no element, a PACK reads its `IN` and the other commands their `WORD`, and each
result is a function of that. -/
theorem resultsDependOnOperandsOnly : Obligations.ResultsDependOnOperandsOnly := by
  intro i s s' hwf hm hm' hread
  change SameResult i s s'
  obtain ⟨values, out, hd⟩ | ⟨input, outWord, rfl⟩ | ⟨word, out, rfl⟩ | ⟨word, rfl⟩ | rfl := delivers_or_command i
  · exact sameResult_of_deliverSlots hm hm' hd.length_le (hd.exec_eq s) (hd.exec_eq s')
      (hd.storedElems_eq s) (hd.storedElems_eq s')
  · exact sameResult_pack hm hm' (by simpa [Instr.wellFormed] using hwf) (inElems_congr hread)
  · exact sameResult_unpack hm hm' (wordValue_congr fun e he => hread e (by simp [Instr.mayRead, he]))
  · exact sameResult_countPacked (wordValue_congr fun e he => hread e (by simp [Instr.mayRead, he]))
  · exact sameResult_illegalCommand

end Sys2Proof.Machine

end

/-! PACK and the old value of its slot (spec/20_memory.md R33). -/

section

namespace Sys2Proof.Machine

variable {s : State} {m : Memory} {input : InBuf} {outWord : Nat} {old : Word}

/-- The slot is no element of `IN` (R41), so a write to it changes nothing that PACK reads. -/
theorem inElems_write_slot (h : input.holds outWord = false) :
    inElems (m.write outWord old) input = inElems m input :=
  inElems_congr fun _ he => Memory.read_write_ne fun heq => by simp [heq, h] at he

/-- Settles O21: the input elements, and so the packer's result, are the same for every old slot value; a failure
writes nothing, and a success overwrites the slot. -/
theorem packReplacesItsSlotUnread : Obligations.PackReplacesItsSlotUnread := by
  intro input outWord s old hm h
  have hin : inElems (s.mem.write outWord old) input = inElems s.mem input := inElems_write_slot h
  cases hr : packRegs (inElems s.mem input) with
  | none =>
    exact ⟨_, _, execPack_of_none h hr, execPack_of_none h (hin.symm ▸ hr), rfl, rfl, .inr ⟨rfl, rfl, rfl⟩⟩
  | some r =>
    exact ⟨_, _, execPack_of_some h hr, execPack_of_some h (hin.symm ▸ hr), rfl, rfl,
      .inl ⟨rfl, Memory.write_write hm, packedWord r, rfl, Memory.read_write_self hm⟩⟩

end Sys2Proof.Machine

end

/-! Which status a command answers, with what count, and why (spec/30_encoding.md R58, spec/60_exceptions.md R170). -/

section

namespace Sys2Proof.Machine

variable {i : Instr} {s t : State} {input : InBuf} {outWord : Nat} {out : OutBuf} {values : List Word}

theorem deliverSlots_status : (deliverSlots values out s).status = Status.ok := rfl

theorem deliverSlots_count_le (hlen : values.length ≤ 240) :
    (deliverSlots values out s).count.toNat ≤ 240 := by
  have hmod : (deliverSlots values out s).count.toNat ≤ min values.length out.cap := Nat.mod_le _ _
  omega

/-- The reserved code answers ILLEGAL_COMMAND (R172), so it is no layout. -/
theorem Delivers.ne_illegalCommand (h : Delivers i values out) : i ≠ .illegalCommand := by
  rintro rfl
  have hstatus : Status.illegalCommand = Status.ok :=
    congrArg (·.status) (Host.Outcome.next.inj (h.exec_eq .reset))
  exact absurd hstatus (by decide)

/-- A PACK that completes does not overlap its input (R41). -/
theorem holds_eq_false_of_execPack (h : execPack input outWord s = .next t) : input.holds outWord = false := by
  cases hov : input.holds outWord with
  | false => rfl
  | true => simp [execPack, hov] at h

/-- What a PACK that completes answers: OK with a count that its selector's capacity bounds, or VALUE_TOO_LARGE where
a scanned element is too large (R110, R118). -/
theorem execPack_response (h : execPack input outWord s = .next t) :
    (t.status = Status.ok ∧ t.count.toNat ≤ 240) ∨
      (t.status = Status.valueTooLarge ∧ t.count = 0 ∧ ∃ f, failsAt (inElems s.mem input) f) := by
  obtain ⟨hfail, -, hx⟩ | ⟨r, hdone, -, hx⟩ := execPack_cases (s := s) (holds_eq_false_of_execPack h)
  · obtain rfl := Host.Outcome.next.inj (hx.symm.trans h)
    exact .inr ⟨rfl, rfl, hfail⟩
  · obtain rfl := Host.Outcome.next.inj (hx.symm.trans h)
    exact .inl ⟨rfl, hdone.fits.trans (romCount_le _)⟩

/-- Settles O40: layouts, UNPACK and COUNT_PACKED answer OK with a count of at most 240, PACK answers as
`execPack_response` says, and the reserved code answers ILLEGAL_COMMAND. -/
theorem statusesAndTheirCauses : Obligations.StatusesAndTheirCauses := by
  intro i s t h
  obtain ⟨values, out, hd⟩ | ⟨input, outWord, rfl⟩ | ⟨word, out, rfl⟩ | ⟨word, rfl⟩ | rfl := delivers_or_command i
  · obtain rfl := Host.Outcome.next.inj ((hd.exec_eq s).symm.trans h)
    exact .inl ⟨deliverSlots_status, deliverSlots_count_le hd.length_le, hd.ne_illegalCommand⟩
  · obtain ⟨hok, hcount⟩ | ⟨hlarge, hcount, f, hf⟩ := execPack_response h
    · exact .inl ⟨hok, hcount, nofun⟩
    · exact .inr (.inl ⟨hlarge, hcount, input, outWord, f, rfl, hf⟩)
  · obtain rfl := Host.Outcome.next.inj (execUnpack_eq.symm.trans h)
    exact .inl ⟨deliverSlots_status, deliverSlots_count_le (by simpa using romCount_le _), nofun⟩
  · obtain rfl := Host.Outcome.next.inj h
    exact .inl ⟨rfl, romCount_le _, nofun⟩
  · obtain rfl := Host.Outcome.next.inj h
    exact .inr (.inr ⟨rfl, rfl, rfl⟩)

end Sys2Proof.Machine

end

/-! The codes of the command port (spec/30_encoding.md R57). -/

section

namespace Sys2Proof.Machine

/-- Settles O38: `decodeCommand`, evaluated on each of the four codes. -/
theorem commandCodesDecode : Obligations.CommandCodesDecode :=
  fun _ => ⟨rfl, rfl, rfl, rfl⟩

end Sys2Proof.Machine

end

/-! The selector table (spec/40_selector_table.md R71, R74): the invariants that `romWidth_mono`, `romCount_pos` and
`romCount_strictAnti` do not yet say. -/

section

namespace Sys2Proof.Machine

/-- The payload bits that each selector's full word fills: all 60 but for the zero widths and the two widths, 7 and 8,
that do not fill them (R74, item 1). -/
theorem romWidth_mul_romCount (s : Sel) : (romWidth s).toNat * (romCount s).toNat =
    if s = 0 ∨ s = 1 then 0 else if s = 8 ∨ s = 9 then 56 else 60 := by
  revert s; decide

/-- From selector 1 on, no two selectors share a width (R74, item 2). -/
theorem romWidth_strictMono {a b : Sel} (ha : 1 ≤ a) (h : a < b) : (romWidth a).toNat < (romWidth b).toNat := by
  revert a b; decide

/-- Settles O7, by reading the sixteen entries of `rom`. -/
theorem romHoldsTheTable : Obligations.RomHoldsTheTable := by
  unfold Obligations.RomHoldsTheTable
  decide

/-- Settles O8: a lemma about the table for each item of R74, and its last entry read. -/
theorem romMeetsItsInvariants : Obligations.RomMeetsItsInvariants :=
  ⟨romWidth_mul_romCount, fun _ _ => romWidth_mono, fun _ _ => romWidth_strictMono,
    fun _ _ => romCount_strictAnti, romCount_pos, rfl, rfl⟩

end Sys2Proof.Machine

end

/-! The resolver (spec/41_resolver.md R90 to R93): what `bitlen` counts, and its mapping row by row. -/

section

namespace Sys2Proof.Machine

variable {v : Word} {s : Sel}

theorem lt_bitlen_iff {b : Nat} : b < bitlen v ↔ 2 ^ b ≤ v.toNat := by
  rw [← not_le, bitlen_le_iff, not_lt]

/-- The equation of R90: the leading zeros bound the value from above, and from below where it is not 0. -/
theorem bitlen_eq_sub_clz : bitlen v = 64 - v.clz.toNat := by
  have hle : bitlen v ≤ 64 - v.clz.toNat := bitlen_le_iff.2 BitVec.toNat_lt_two_pow_sub_clz
  by_cases hv : v = 0
  · subst hv
    decide
  · have hlt : 64 - 1 - v.clz.toNat < bitlen v :=
      lt_bitlen_iff.2 (BitVec.two_pow_sub_clz_le_toNat_of_ne_zero (by decide) hv)
    omega

/-- Settles O9: `bitlen v` is the least bound (`bitlen_le_iff`), and the leading zeros give it. -/
theorem bitlenCountsSignificantBits : Obligations.BitlenCountsSignificantBits :=
  fun _ => ⟨bitlen_eq_sub_clz, bitlen_le_iff.1 le_rfl, bitlen_le, fun _ => bitlen_le_iff.2⟩

/-- A row of R91's table, with the bit lengths above `lo` up to `hi`: where the row has one selector, every value of
its range resolves to it. -/
theorem resolve_of_row {lo hi : Nat} (hrow : ∀ b ≤ hi, lo < b → selOfBits b = s) (hhi : hi ≤ 60)
    (hlo : 2 ^ lo ≤ v.toNat) (hv : v.toNat < 2 ^ hi) : resolve v = .sel s := by
  have hle : bitlen v ≤ hi := bitlen_le_iff.2 hv
  rw [resolve_eq, if_pos (hle.trans hhi), hrow (bitlen v) hle (lt_bitlen_iff.2 hlo)]

/-- The rows of one bit length each, 1 to 8. -/
theorem selOfBits_of_le_eight {b : Nat} (h1 : 1 ≤ b) (h8 : b ≤ 8) :
    selOfBits b = BitVec.ofNat 4 (b + 1) := by
  rw [selOfBits, if_neg (by omega), if_pos h8]

/-- Settles O10: `resolve_of_row` for each row, the row's selector read off `selOfBits`. -/
theorem resolverFollowsItsTable : Obligations.ResolverFollowsItsTable := by
  intro v
  refine ⟨?zero, ?single, resolve_of_row (by decide) (by decide), resolve_of_row (by decide) (by decide),
    resolve_of_row (by decide) (by decide), resolve_of_row (by decide) (by decide),
    resolve_of_row (by decide) (by decide), resolve_of_row (by decide) (by decide), resolve_tooLarge_iff.2⟩
  case zero =>
    rintro rfl
    rfl
  case single =>
    intro b h1 h8
    refine resolve_of_row (fun c hc hlt => ?_) (by omega)
    obtain rfl : c = b := by omega
    exact selOfBits_of_le_eight h1 h8

/-- Selector 1 holds no value that selector 0 does not hold (R93). -/
theorem resolve_ne_sel_one : resolve v ≠ .sel 1 := by
  intro h
  have hone : v.toNat < 2 ^ (romWidth 1).toNat := (resolve_le_iff h).1 (BitVec.le_refl 1)
  have hzero : (1 : Sel) ≤ 0 := (resolve_le_iff h).2 hone
  exact absurd hzero (by decide)

/-- Settles O11: the only failure is `resolve_tooLarge_iff`, and `resolve_le_iff` says that the answer is least. -/
theorem resolverAnswersTheSmallestSelector : Obligations.ResolverAnswersTheSmallestSelector := by
  refine fun v => ⟨resolve_tooLarge_iff, resolve_tooLarge_iff.trans lt_bitlen_iff.symm, fun hv => ?_,
    resolve_ne_sel_one⟩
  obtain ⟨s, hs⟩ := resolve_of_lt hv
  exact ⟨s, hs, (resolve_le_iff hs).1 (BitVec.le_refl s), fun _ => (resolve_le_iff hs).2⟩

end Sys2Proof.Machine

end

/-! The packer (spec/42_packer.md R114, R115, R120, R121): what its registers hold when the word is assembled, which
selector it ends with, and that it consumes an element where there is one. -/

section

namespace Sys2Proof.Machine

variable {s t : State} {xs : List Word} {r : PackRegs} {v : Word} {input : InBuf} {outWord : Nat}

/-! ## The registers when the word is assembled -/

theorem packDone_of_packRegs (h : packRegs xs = some r) : PackDone xs r := by
  obtain ⟨hnone, -⟩ | ⟨r', hsome, hdone⟩ := packRegs_cases xs
  · cases hnone.symm.trans h
  · cases hsome.symm.trans h
    exact hdone

/-- Each consumed value fits the selector's width (R120 item 2). -/
theorem PackDone.consumed_lt (h : PackDone xs r) {j : Nat} (hj : j < r.cnt.toNat) :
    (xs.getD j 0).toNat < 2 ^ (romWidth r.sel).toNat := by
  have hx : j < xs.length := hj.trans_le h.cnt_le
  rw [← List.getElem_eq_getD (h := hx)]
  exact h.small _ (List.mem_take_iff_getElem.2 ⟨j, by omega, rfl⟩)

/-- The accumulator reaches no bit above the slots in use (R120 item 4). -/
theorem PackDone.acc_lt (h : PackDone xs r) :
    r.acc.toNat < 2 ^ (r.cnt.toNat * (romWidth r.sel).toNat) :=
  h.acc.trans_lt h.slotSum_lt

/-- Settles O14: the five items of R120, each a consequence of `PackDone`. -/
theorem packKeepsItsAssemblyInvariants : Obligations.PackKeepsItsAssemblyInvariants := by
  intro xs r hr
  have h : PackDone xs r := packDone_of_packRegs hr
  exact ⟨h.fits, fun _ => h.consumed_lt, h.mul_le, h.acc_lt, h.selx_packedWord, fun _ => h.packedWord_padding⟩

/-! ## The selector of the word -/

/-- After an early stop every larger selector has too small a capacity (R114). -/
theorem PackDone.romCount_lt_of_stopped (h : PackDone xs r) (hstop : r.cnt.toNat < xs.length) {u : Sel}
    (hu : r.sel < u) : (romCount u).toNat < r.cnt.toNat := by
  obtain ⟨-, hall, -, -⟩ | ⟨-, -, -, -, hmax⟩ := h.ending
  · omega
  · exact hmax u hu

/-- After exhaustion the selector is the smallest whose width holds every value (R115). -/
theorem PackDone.sel_le_iff_of_exhausted (h : PackDone xs r) (hall : r.cnt.toNat = xs.length) {u : Sel} :
    r.sel ≤ u ↔ ∀ v ∈ xs, v.toNat < 2 ^ (romWidth u).toNat := by
  obtain ⟨-, -, -, hsel⟩ | ⟨-, -, ⟨v, hv, -⟩, -, -⟩ := h.ending
  · exact hsel u
  · have : r.cnt.toNat < xs.length := (List.getElem?_eq_some_iff.1 hv).1
    omega

/-- A PACK that scans no too-large element completes, and answers and writes what its packer ends with (R117). -/
theorem exists_packDone_of_not_failsAt (hm : s.mem.wf) (h : input.holds outWord = false)
    (hfail : ∀ f, ¬ failsAt (inElems s.mem input) f) :
    ∃ r t, PackDone (inElems s.mem input) r ∧ execPack input outWord s = .next t ∧ t.count = r.cnt ∧
      t.mem.read outWord = packedWord r := by
  obtain ⟨⟨f, hf⟩, -⟩ | ⟨r, hdone, -, hx⟩ := execPack_cases (s := s) h
  · exact absurd hf (hfail f)
  · exact ⟨r, _, hdone, hx, rfl, Memory.read_write_self hm⟩

/-- Settles O17: the word written carries the packer's selector, which `PackDone` describes for either ending. -/
theorem packChoosesItsSelector : Obligations.PackChoosesItsSelector := by
  intro input outWord s hm h hfail
  obtain ⟨r, t, hdone, hx, hcount, hword⟩ := exists_packDone_of_not_failsAt hm h hfail
  refine ⟨t, hx, ?_⟩
  rw [hcount, hword, hdone.selx_packedWord]
  exact ⟨fun hstop => ⟨hdone.fits, fun _ => hdone.romCount_lt_of_stopped hstop⟩,
    fun hall _ => hdone.sel_le_iff_of_exhausted hall⟩

/-! ## Progress -/

/-- Selector 15 holds one value of up to 60 bits (R74 item 5). -/
theorem oneSelectorHolds_singleton (hv : v.toNat < 2 ^ 60) : oneSelectorHolds [v] :=
  ⟨15, romCount_pos 15, fun _ hu => List.mem_singleton.1 hu ▸ hv⟩

/-- The scan does not stop at the first element: it fails there, or a selector holds that element alone (R121). -/
theorem PackDone.cnt_pos (h : PackDone xs r) (hne : 1 ≤ xs.length) : 1 ≤ r.cnt.toNat := by
  by_contra hlt
  have hzero : r.cnt.toNat = 0 := by omega
  obtain ⟨-, hall, -, -⟩ | ⟨-, -, ⟨v, hv, hsmall⟩, hfull, -⟩ := h.ending
  · omega
  · have htake : xs.take (r.cnt.toNat + 1) = [v] := by rw [List.take_add_one, hv, hzero]; rfl
    exact hfull (htake ▸ oneSelectorHolds_singleton hsmall)

/-- A PACK that answers OK answers its packer's count. -/
theorem exists_packDone_of_status_ok (h : execPack input outWord s = .next t) (hok : t.status = Status.ok) :
    ∃ r, PackDone (inElems s.mem input) r ∧ t.count = r.cnt := by
  obtain ⟨-, -, hx⟩ | ⟨r, hdone, -, hx⟩ := execPack_cases (s := s) (holds_eq_false_of_execPack h)
  · obtain rfl := Host.Outcome.next.inj (hx.symm.trans h)
    exact absurd hok (show Status.valueTooLarge ≠ Status.ok by decide)
  · obtain rfl := Host.Outcome.next.inj (hx.symm.trans h)
    exact ⟨r, hdone, rfl⟩

/-- Settles O18: an OK answer gives the packer's count, which is at least 1 for a non-empty input. -/
theorem packMakesProgress : Obligations.PackMakesProgress := by
  intro input outWord s t hne hx hok
  obtain ⟨r, hdone, hcount⟩ := exists_packDone_of_status_ok hx hok
  exact hcount ▸ hdone.cnt_pos hne

end Sys2Proof.Machine

end

/-! The round trip (spec/43_unpacker.md R147, R151): the slots of the word that PACK writes are the consumed values, then
zeros, and UNPACK delivers the slots. -/

section

namespace Sys2Proof.Machine

variable {s t : State} {xs : List Word} {r : PackRegs} {input : InBuf} {outWord : Nat} {word : WordArg} {out : OutBuf}

/-! ## The slots of the packed word -/

theorem getElem_wordValues {w : Word} {j : Nat} (hj : j < (wordValues w).length) :
    (wordValues w)[j] = fieldOf w (romWidth (selx w)).toNat j := by
  simp [wordValues]

/-- A slot from the count on lies between the slots in use and the selector. -/
theorem PackDone.fieldOf_packedWord_eq_zero (h : PackDone xs r) {j : Nat} (hj : r.cnt.toNat ≤ j)
    (hcap : j < (romCount r.sel).toNat) : fieldOf (packedWord r) (romWidth r.sel).toNat j = 0 := by
  have hlow : r.cnt.toNat * (romWidth r.sel).toNat ≤ j * (romWidth r.sel).toNat := Nat.mul_le_mul_right _ hj
  have hhigh : j * (romWidth r.sel).toNat + (romWidth r.sel).toNat ≤ 60 := calc
    _ = (romWidth r.sel).toNat * (j + 1) := by ring
    _ ≤ (romWidth r.sel).toNat * (romCount r.sel).toNat := Nat.mul_le_mul_left _ hcap
    _ ≤ 60 := romWidth_mul_romCount_le r.sel
  have hslot : (packedWord r).extractLsb' (j * (romWidth r.sel).toNat) (romWidth r.sel).toNat = 0 := by
    refine BitVec.eq_of_getLsbD_eq fun b hb => ?_
    rw [BitVec.getLsbD_extractLsb', h.packedWord_padding (by omega) (by omega)]
    simp
  rw [fieldOf, hslot]
  exact BitVec.setWidth_zero _ _

theorem PackDone.length_wordValues_packedWord (h : PackDone xs r) :
    (wordValues (packedWord r)).length = (romCount r.sel).toNat := by
  rw [wordValues_length, h.selx_packedWord]

/-- Slot by slot, the word holds the consumed values (R119), and zeros in the slots of a loose fit (R147). -/
theorem PackDone.getElem_wordValues_packedWord (h : PackDone xs r) {j : Nat}
    (hj : j < (wordValues (packedWord r)).length) :
    (wordValues (packedWord r))[j] = if j < r.cnt.toNat then xs.getD j 0 else 0 := by
  rw [getElem_wordValues, h.selx_packedWord]
  split
  · have hx : j < xs.length := by have := h.cnt_le; omega
    rw [← List.getElem_eq_getD (h := hx)]
    exact h.slot_packedWord ‹_› hx
  · exact h.fieldOf_packedWord_eq_zero (by omega) (h.length_wordValues_packedWord ▸ hj)

/-! ## PACK, then UNPACK of its slot -/

/-- UNPACK delivers the values its word holds. -/
theorem exec_unpack_delivered (hm : s.mem.wf) :
    ∃ u, exec (.unpack word out) s = .next u ∧ s.delivered u (wordValues (wordValue s.mem word)) out :=
  ⟨_, execUnpack_eq, deliverSlots_delivered hm (by simpa using romCount_le _)⟩

/-- What a PACK that answers OK leaves: its packer's word in the slot (R117), in a storage in canonical form. -/
theorem exists_packDone_slot_of_status_ok (hm : s.mem.wf) (h : execPack input outWord s = .next t)
    (hok : t.status = Status.ok) :
    ∃ r, PackDone (inElems s.mem input) r ∧ t.count = r.cnt ∧ t.mem.wf ∧ t.mem.read outWord = packedWord r := by
  obtain ⟨r₀, h₀, -⟩ := exists_packDone_of_status_ok h hok
  obtain ⟨⟨f, hf⟩, -⟩ | ⟨r, hdone, -, hx⟩ := execPack_cases (s := s) (holds_eq_false_of_execPack h)
  · exact absurd hf (h₀.not_failsAt f)
  · obtain rfl := Host.Outcome.next.inj (hx.symm.trans h)
    exact ⟨r, hdone, rfl, Memory.wf_write hm, Memory.read_write_self hm⟩

/-- UNPACK of the slot that a PACK with OK wrote: as many slots as the buffer takes, at least PACK's count where it
takes so many, each the input's element or, from the count on, 0. -/
theorem unpack_of_packed (hm : s.mem.wf) (h : exec (.pack input outWord) s = .next t) (hok : t.status = Status.ok) :
    ∃ u n, exec (.unpack (.elem outWord) out) t = .next u ∧ u.status = Status.ok ∧ t.count.toNat ≤ n ∧
      u.count.toNat = min n out.cap ∧
      ∀ j < u.count.toNat, u.mem.read (outElem out j) =
        if j < t.count.toNat then (inElems s.mem input).getD j 0 else 0 := by
  obtain ⟨r, hdone, hcount, hwf, hslot⟩ := exists_packDone_slot_of_status_ok hm h hok
  obtain ⟨u, hx, hstatus, hucount, hread, -⟩ := exec_unpack_delivered (word := .elem outWord) (out := out) hwf
  rw [wordValue, hslot] at hucount hread
  refine ⟨u, _, hx, hstatus, ?_, hucount, fun j hj => ?_⟩
  · rw [hcount, hdone.length_wordValues_packedWord]
    exact hdone.fits
  · rw [hread j (by omega) (by omega), hcount, hdone.getElem_wordValues_packedWord]

/-- Settles O27: the delivered elements below the count, by `unpack_of_packed`; a buffer that takes fewer is filled. -/
theorem packThenUnpackGivesBackTheInput : Obligations.PackThenUnpackGivesBackTheInput := by
  intro input outWord out s t hm h hok
  obtain ⟨u, n, hx, hstatus, hle, hcount, hread⟩ := unpack_of_packed (out := out) hm h hok
  refine ⟨u, hx, hstatus, by omega, by omega, fun j hj hcap => ?_⟩
  rw [hread j (by omega), if_pos hj]

/-- Settles O28: the delivered elements from the count on, by `unpack_of_packed`. -/
theorem looseFitUnpacksToZeros : Obligations.LooseFitUnpacksToZeros := by
  intro input outWord out s t hm h hok
  obtain ⟨u, n, hx, -, -, -, hread⟩ := unpack_of_packed (out := out) hm h hok
  refine ⟨u, hx, fun j hle hj => ?_⟩
  rw [hread j hj, if_neg (by omega)]

end Sys2Proof.Machine

end

/-! The layouts of an EncodedWord (spec/30_encoding.md R51 to R55): what decoding an encoded instruction gives, and what
the row of a word holds. -/

section

namespace Sys2Proof.Machine

variable {w : Word} {out : OutBuf} {s : Sel} {width n : Nat}

/-! ## Decoding what was encoded -/

/-- A word whose slots fill its payload decodes to the row of its selector, with the slots it was made from. -/
theorem decodeWord_encodeSlots {slots : Vector (BitVec width) n} {row : Vector (BitVec width) n → OutBuf → Instr}
    (hrow : ∀ w, selx w = s → decodeWord w out = row (slotsOf width n w) out) (hw : 0 < width)
    (hn : n * width ≤ 60) : decodeWord (encodeSlots s slots) out = row slots out := by
  rw [hrow _ (selx_encodeSlots hw hn), slotsOf_encodeSlots_self hw hn]

/-- The same for a word whose bits 59:56 are unused (R53). -/
theorem decodeWord_encodeSlots_unused {slots : Vector (BitVec width) n} {unused : BitVec 4}
    {row : Vector (BitVec width) n → BitVec 4 → OutBuf → Instr}
    (hrow : ∀ w, selx w = s → decodeWord w out = row (slotsOf width n w) (w.extractLsb' 56 4) out)
    (hw : 0 < width) (hn : n * width = 56) :
    decodeWord (encodeSlots s slots ||| (unused.setWidth 64 <<< 56)) out = row slots unused out := by
  have hsel : selx (encodeSlots s slots ||| (unused.setWidth 64 <<< 56)) = s :=
    RowBits.layout.inj (Laws.RowMatch.layout_slots_unused (out := out) hw (by omega))
  have hslots : slotsOf width n (encodeSlots s slots ||| (unused.setWidth 64 <<< 56)) = slots :=
    slotsOf_encodeSlots hw (by omega) fun b hb => by simp; omega
  rw [hrow _ hsel, hslots]
  congr 1
  refine BitVec.eq_of_getLsbD_eq fun k hk => ?_
  have hslot : slots.toList[(56 + k) / width]? = none :=
    List.getElem?_eq_none (by rw [Vector.length_toList, Nat.le_div_iff_mul_le hw]; omega)
  rw [BitVec.getLsbD_extractLsb', BitVec.getLsbD_or, encodeSlots, BitVec.getLsbD_or, placeSel_getLsbD,
    placeSlots_getLsbD hw, Nat.sub_zero, hslot]
  have hbelow : ¬ 60 ≤ 56 + k := by omega
  have hlt : 56 + k < 64 ∧ k < 64 := by omega
  simp [hk, hbelow, hlt]

/-- The same for a zero-width row, whose payload is unused (R52). -/
theorem decodeWord_placeSel {unused : BitVec 60} {row : BitVec 60 → OutBuf → Instr}
    (hrow : ∀ w, selx w = s → decodeWord w out = row (w.extractLsb' 0 60) out) :
    decodeWord (placeSel s ||| unused.setWidth 64) out = row unused out := by
  have hsel : selx (placeSel s ||| unused.setWidth 64) = s :=
    RowBits.layout.inj (Laws.RowMatch.layout_unused (out := out))
  rw [hrow _ hsel]
  congr 1
  refine BitVec.eq_of_getLsbD_eq fun k hk => ?_
  rw [BitVec.getLsbD_extractLsb', BitVec.getLsbD_or, placeSel_getLsbD]
  have hbelow : ¬ 60 ≤ k := by omega
  have hlt : k < 64 := by omega
  simp [hk, hbelow, hlt]

/-- Settles O35: the words of each kind of layout decode to what they were made from, and each command code has its
own operands. -/
theorem decodeInvertsEncode : Obligations.DecodeInvertsEncode := by
  intro i
  cases i with
  | wordSel0 | wordSel1 => exact decodeWord_placeSel fun w h => by simp [decodeWord, h]
  | wordSel8 | wordSel9 =>
    exact decodeWord_encodeSlots_unused (fun w h => by simp [decodeWord, h]) (by decide) (by decide)
  | pack | unpack | countPacked | illegalCommand => rfl
  | _ => exact decodeWord_encodeSlots (fun w h => by simp [decodeWord, h]) (by decide) (by decide)

/-! ## The row of a word -/

/-- What the layout row of a word is: its encoding is the word, its fixed bits are the word's selector, and it
delivers the values that the word holds. -/
structure RowOfWord (i : Instr) (w : Word) (out : OutBuf) : Prop where
  encode_eq : encode i = .word w out
  rowBits_eq : i.rowBits = .layout (selx w)
  delivers : Delivers i (wordValues w) out

/-- A word is its selector over its low 60 bits (R50). -/
theorem placeSel_selx_or {x : Word} (hsel : selx w = s) (hlow : ∀ b < 60, x.getLsbD b = w.getLsbD b)
    (hhigh : ∀ b, 60 ≤ b → x.getLsbD b = false) : placeSel s ||| x = w := by
  subst hsel
  refine BitVec.eq_of_getLsbD_eq fun b hb => ?_
  rw [BitVec.getLsbD_or, placeSel_getLsbD]
  by_cases h60 : 60 ≤ b
  · have h4 : b - 60 < 4 := by omega
    simp [h60, hhigh b h60, selx, h4]
  · simp [h60, hlow b (by omega)]

/-- The slots read out of a word stand where they were read. -/
theorem placeSlots_slotsOf_getLsbD (hw : 0 < width) (hn : n * width ≤ 64) {b : Nat} :
    (placeSlots width 0 (slotsOf width n w).toList).getLsbD b = (decide (b < n * width) && w.getLsbD b) := by
  rw [placeSlots_getLsbD hw, Nat.sub_zero]
  by_cases hb : b < n * width
  · have hj : b / width < n := (Nat.div_lt_iff_lt_mul hw).2 hb
    have h64 : b < 64 := by omega
    simp [slotsOf, hb, hj, h64, Nat.mod_lt b hw, Nat.mul_comm (b / width), Nat.div_add_mod]
  · have hj : (slotsOf width n w).toList[b / width]? = none :=
      List.getElem?_eq_none (by rw [Vector.length_toList, Nat.le_div_iff_mul_le hw]; omega)
    rw [hj]
    simp [hb]

/-- The slots of a layout as the selector table has it are the values the word holds (R145). -/
theorem wordValues_eq_slotValues (hc : (romCount (selx w)).toNat = n) (hw : (romWidth (selx w)).toNat = width) :
    wordValues w = slotValues (slotsOf width n w) := by
  rw [wordValues, hc, hw]
  refine List.ext_getElem (by simp) fun j hj _ => ?_
  simp [slotValues, slotsOf, fieldOf]

/-- A word of a zero-width selector holds zeros (R52). -/
theorem wordValues_eq_replicate (hc : (romCount (selx w)).toNat = n) (hw : (romWidth (selx w)).toNat = 0) :
    wordValues w = List.replicate n 0 := by
  refine List.eq_replicate_iff.2 ⟨by simp [hc], fun v hv => ?_⟩
  rw [wordValues, hw] at hv
  obtain ⟨j, -, rfl⟩ := List.mem_map.1 hv
  simp [fieldOf]

/-- The row of a word whose slots fill the payload. -/
theorem rowOfWord_of_slots {row : Vector (BitVec width) n → OutBuf → Instr}
    (henc : ∀ slots, encode (row slots out) = .word (encodeSlots s slots) out)
    (hbits : ∀ slots, (row slots out).rowBits = .layout s)
    (hrow : ∀ slots, Delivers (row slots out) (slotValues slots) out)
    (hsel : (selx w).toNat = s.toNat) (hc : (romCount s).toNat = n) (hw : (romWidth s).toNat = width)
    (hpos : 0 < width) (hn : n * width = 60) :
    RowOfWord (row (slotsOf width n w) out) w out := by
  obtain rfl : selx w = s := BitVec.eq_of_toNat_eq hsel
  refine ⟨?_, hbits _, wordValues_eq_slotValues hc hw ▸ hrow _⟩
  rw [henc, encodeSlots, placeSel_selx_or rfl (fun b hb => ?_) (fun b hb => ?_)] <;>
    rw [placeSlots_slotsOf_getLsbD hpos (by omega), hn]
  · simp [hb]
  · simp [Nat.not_lt.2 hb]

/-- The row of a word with four unused bits between its slots and its selector. -/
theorem rowOfWord_of_slots_unused {row : Vector (BitVec width) n → BitVec 4 → OutBuf → Instr}
    
    (henc : ∀ slots unused, encode (row slots unused out) =
      .word (encodeSlots s slots ||| (unused.setWidth 64 <<< 56)) out)
    (hbits : ∀ slots unused, (row slots unused out).rowBits = .layout s)
    (hrow : ∀ slots unused, Delivers (row slots unused out) (slotValues slots) out)
    (hsel : (selx w).toNat = s.toNat) (hc : (romCount s).toNat = n) (hw : (romWidth s).toNat = width)
    (hpos : 0 < width) (hn : n * width = 56) :
    RowOfWord (row (slotsOf width n w) (w.extractLsb' 56 4) out) w out := by
  obtain rfl : selx w = s := BitVec.eq_of_toNat_eq hsel
  refine ⟨?_, hbits _ _, wordValues_eq_slotValues hc hw ▸ hrow _ _⟩
  rw [henc, encodeSlots, BitVec.or_assoc, placeSel_selx_or rfl (fun b hb => ?_) (fun b hb => ?_)] <;>
    rw [BitVec.getLsbD_or, placeSlots_slotsOf_getLsbD hpos (by omega), hn, BitVec.getLsbD_shiftLeft,
      BitVec.getLsbD_setWidth, BitVec.getLsbD_extractLsb']
  · by_cases h56 : b < 56
    · simp [h56]
    · have h4 : b < 64 ∧ b - 56 < 64 ∧ b - 56 < 4 ∧ 56 + (b - 56) = b := by omega
      simp [h56, h4]
  · have h4 : ¬ b < 56 ∧ ¬ b - 56 < 4 := by omega
    simp [h4]

/-- The row of a word of a zero-width selector. -/
theorem rowOfWord_of_unused {row : BitVec 60 → OutBuf → Instr}
    (henc : ∀ unused, encode (row unused out) = .word (placeSel s ||| unused.setWidth 64) out)
    (hbits : ∀ unused, (row unused out).rowBits = .layout s)
    (hrow : ∀ unused, Delivers (row unused out) (List.replicate n 0) out)
    (hsel : (selx w).toNat = s.toNat) (hc : (romCount s).toNat = n) (hw : (romWidth s).toNat = 0) :
    RowOfWord (row (w.extractLsb' 0 60) out) w out := by
  obtain rfl : selx w = s := BitVec.eq_of_toNat_eq hsel
  refine ⟨?_, hbits _, wordValues_eq_replicate hc hw ▸ hrow _⟩
  rw [henc, placeSel_selx_or rfl (fun b hb => ?_) (fun b hb => ?_)] <;>
    rw [BitVec.getLsbD_setWidth, BitVec.getLsbD_extractLsb']
  · have h64 : b < 64 := by omega
    simp [hb, h64]
  · simp [Nat.not_lt.2 hb]

/-- Every word decodes to its row (R54). -/
theorem rowOfWord_decodeWord : RowOfWord (decodeWord w out) w out := by
  unfold decodeWord
  split
  case h_1 h | h_2 h =>
    exact rowOfWord_of_unused (fun _ => rfl) (fun _ => rfl)
      (fun _ => delivers_of_length List.length_replicate (by decide) (fun _ => rfl) (fun _ => rfl)) h rfl rfl
  case h_9 h | h_10 h =>
    exact rowOfWord_of_slots_unused (fun _ _ => rfl) (fun _ _ => rfl)
      (fun _ _ => delivers_of_length slotValues_length (by decide) (fun _ => rfl) (fun _ => rfl)) h rfl rfl
      (by decide) (by decide)
  case h_3 h | h_4 h | h_5 h | h_6 h | h_7 h | h_8 h | h_11 h | h_12 h | h_13 h | h_14 h | h_15 h =>
    exact rowOfWord_of_slots (fun _ => rfl) (fun _ => rfl)
      (fun _ => delivers_of_length slotValues_length (by decide) (fun _ => rfl) (fun _ => rfl)) h rfl rfl
      (by decide) (by decide)
  case h_16 =>
    have h : (selx w).toNat = (15 : Sel).toNat := by
      have hlt := (selx w).isLt
      simp only [imp_false] at *
      change (selx w).toNat = 15
      omega
    exact rowOfWord_of_slots (fun _ => rfl) (fun _ => rfl)
      (fun _ => delivers_of_length slotValues_length (by decide) (fun _ => rfl) (fun _ => rfl)) h rfl rfl
      (by decide) (by decide)

/-- Settles O36: `rowOfWord_decodeWord`. -/
theorem encodeInvertsDecodeOnWords : Obligations.EncodeInvertsDecodeOnWords :=
  fun _ _ => rowOfWord_decodeWord.encode_eq

/-- The mask of R55 keeps bits 63:60 in their place. -/
theorem and_selectorMask : w &&& (0xF000000000000000 : Word) = placeSel (selx w) := by
  have hmask : (0xF000000000000000 : Word) = placeSel (BitVec.allOnes 4) := by decide
  refine BitVec.eq_of_getLsbD_eq fun b hb => ?_
  rw [hmask, BitVec.getLsbD_and, placeSel_getLsbD, placeSel_getLsbD, BitVec.getLsbD_allOnes, selx,
    BitVec.getLsbD_extractLsb']
  by_cases h60 : 60 ≤ b
  · have h4 : b - 60 < 4 := by omega
    simp [h60, h4]
  · simp [h60]

theorem selx_placeSel : selx (placeSel s) = s := by
  revert s
  decide

/-- Settles O37: the row's fixed bits are the word's selector, which the mask keeps. -/
theorem selectorDecidesTheRow : Obligations.SelectorDecidesTheRow := by
  intro w out s
  have hrow : (decode (.word w out)).rowBits = .layout (selx w) := rowOfWord_decodeWord.rowBits_eq
  rw [hrow, and_selectorMask]
  change _ ↔ placeSel (selx w) = placeSel s
  constructor
  · intro h
    rw [RowBits.layout.inj h]
  · intro h
    rw [← selx_placeSel (s := selx w), h, selx_placeSel]

/-- Settles O26: the row of a word delivers the values that the word holds, and so does UNPACK's loop
(`unpackWord_eq`). -/
theorem unpackLoopMatchesTheLayoutRow : Obligations.UnpackLoopMatchesTheLayoutRow := by
  intro w out s
  rw [rowOfWord_decodeWord.delivers.exec_eq]
  exact (execUnpack_eq (word := .lit w)).symm

/-- Settles O39: each word read field by field. -/
theorem tableWordsDecode : Obligations.TableWordsDecode := by
  unfold Obligations.TableWordsDecode
  decide

/-! ## What the rows deliver -/

variable {i : Instr} {values : List Word}

theorem Delivers.completesDelivering (h : Delivers i values out) : completesDelivering i values out :=
  fun s hm => ⟨_, h.exec_eq s, deliverSlots_delivered hm h.length_le⟩

/-- Settles O32: the zero-width rows deliver zeros from every state. -/
theorem zeroWidthRowsDeliverZeros : Obligations.ZeroWidthRowsDeliverZeros := by
  refine ⟨fun _ _ => ?_, fun _ _ => ?_⟩ <;>
    exact (delivers_of_length List.length_replicate (by decide) (fun _ => rfl) (fun _ => rfl)).completesDelivering

/-- Settles O33: the two rows with unused bits deliver their slots from every state. -/
theorem rowsWithUnusedBitsDeliverTheirSlots : Obligations.RowsWithUnusedBitsDeliverTheirSlots := by
  refine ⟨fun _ _ _ => ?_, fun _ _ _ => ?_⟩ <;>
    exact (delivers_of_length slotValues_length (by decide) (fun _ => rfl) (fun _ => rfl)).completesDelivering

/-- Settles O34: the other twelve rows deliver their slots from every state. -/
theorem fullRowsDeliverTheirSlots : Obligations.FullRowsDeliverTheirSlots := by
  refine ⟨?_, ?_, ?_, ?_, ?_, ?_, ?_, ?_, ?_, ?_, ?_, ?_⟩ <;> intro _ _ <;>
    exact (delivers_of_length slotValues_length (by decide) (fun _ => rfl) (fun _ => rfl)).completesDelivering

end Sys2Proof.Machine

end

/-! The packer (spec/42_packer.md R117 to R126): a failing scan, the closed form of the word, the longest held
beginning, and how far the scan reads. -/

section

namespace Sys2Proof.Machine

variable {s t : State} {xs ys : List Word} {r : PackRegs} {input : InBuf} {outWord f : Nat}

/-! ## A failing scan, and one that does not fail -/

/-- Where a scanned element is too large the packer ends without registers. -/
theorem packRegs_eq_none (hf : failsAt xs f) : packRegs xs = none := by
  obtain ⟨hnone, -⟩ | ⟨r, -, hdone⟩ := packRegs_cases xs
  · exact hnone
  · exact absurd hf (hdone.not_failsAt f)

/-- Settles O12: the packer has no registers to write, so PACK only answers. -/
theorem packFailsAtAScannedElement : Obligations.PackFailsAtAScannedElement := by
  intro input outWord s f h hf
  exact ⟨_, execPack_of_none h (packRegs_eq_none hf), rfl, rfl, rfl, rfl, rfl⟩

/-- Where no scanned element is too large the packer ends with registers. -/
theorem exists_packRegs_of_not_failsAt (hfail : ∀ f, ¬ failsAt xs f) :
    ∃ r, packRegs xs = some r ∧ PackDone xs r := by
  obtain ⟨-, f, hf⟩ | h := packRegs_cases xs
  · exact absurd hf (hfail f)
  · exact h

/-! ## The closed form of the word -/

theorem PackDone.getD_take (j : Nat) (hj : j < r.cnt.toNat) : (xs.take r.cnt.toNat).getD j 0 = xs.getD j 0 := by
  rw [List.getD_eq_getElem?_getD, List.getElem?_take_of_lt hj, List.getD_eq_getElem?_getD]

/-- The word as a number: the selector over the sum of the consumed values, each shifted to its slot (R119). -/
theorem PackDone.packedWord_eq_sum (h : PackDone xs r) : (packedWord r).toNat = r.sel.toNat * 2 ^ 60 +
    ∑ j ∈ Finset.range r.cnt.toNat, (xs.getD j 0).toNat * 2 ^ (j * (romWidth r.sel).toNat) := by
  rw [h.packedWord_toNat, slotSum_eq_sum, h.take_length]
  congr 1
  exact Finset.sum_congr rfl fun j hj => by rw [PackDone.getD_take j (Finset.mem_range.1 hj)]

/-- A value shifted to its slot has no bit outside it. -/
theorem getLsbD_shiftLeft_slot {v : Word} {w j b : Nat} (hv : v.toNat < 2 ^ w)
    (hb : (v <<< (j * w)).getLsbD b = true) : j * w ≤ b ∧ b < (j + 1) * w := by
  rw [BitVec.getLsbD_shiftLeft] at hb
  simp only [Bool.and_eq_true, Bool.not_eq_true', decide_eq_true_eq, decide_eq_false_iff_not, not_lt] at hb
  obtain ⟨⟨-, hle⟩, hbit⟩ := hb
  refine ⟨hle, ?_⟩
  by_contra hge
  have hw : w ≤ b - j * w := by
    rw [Nat.add_mul, Nat.one_mul] at hge
    omega
  rw [← BitVec.testBit_toNat, Nat.testBit_lt_two_pow (hv.trans_le (Nat.pow_le_pow_right (by omega) hw))] at hbit
  cases hbit

/-- Values shifted to different slots share no bit (R119). -/
theorem shiftLeft_and_shiftLeft_slot {u v : Word} {w j k : Nat} (hu : u.toNat < 2 ^ w) (hv : v.toNat < 2 ^ w)
    (hjk : j ≠ k) : (u <<< (j * w)) &&& (v <<< (k * w)) = 0 := by
  refine BitVec.eq_of_getLsbD_eq fun b _ => ?_
  rw [BitVec.getLsbD_and, show (0 : Word).getLsbD b = false from BitVec.getLsbD_zero, Bool.and_eq_false_iff]
  by_contra! hboth
  obtain ⟨hbu, hbv⟩ := hboth
  obtain ⟨hj, hj'⟩ := getLsbD_shiftLeft_slot hu (Bool.eq_true_of_not_eq_false hbu)
  obtain ⟨hk, hk'⟩ := getLsbD_shiftLeft_slot hv (Bool.eq_true_of_not_eq_false hbv)
  have hjk' : j < k + 1 := Nat.lt_of_mul_lt_mul_right (hj.trans_lt hk')
  have hkj' : k < j + 1 := Nat.lt_of_mul_lt_mul_right (hk.trans_lt hj')
  omega

/-- Settles O13: the word is the packer's (`Memory.read_write_self`), which `PackDone` describes slot by slot. -/
theorem packWordHasItsClosedForm : Obligations.PackWordHasItsClosedForm := by
  intro input outWord s hm h hfail
  obtain ⟨r, hr, hdone⟩ := exists_packRegs_of_not_failsAt hfail
  have hword : (s.mem.write outWord (packedWord r)).read outWord = packedWord r := Memory.read_write_self hm
  refine ⟨_, r.sel, execPack_of_some h hr, rfl, ?_⟩
  simp only [State.releasePacker_mem, State.finish_mem, State.releasePacker_count, State.finish_count, hword]
  refine ⟨hdone.selx_packedWord, hdone.cnt_le, hdone.fits, hdone.packedWord_eq_sum, fun j k hj hk hjk => ?_,
    fun j hj => ?_, fun e he => Memory.read_write_ne he, rfl, rfl⟩
  · exact shiftLeft_and_shiftLeft_slot (hdone.consumed_lt hj) (hdone.consumed_lt hk) hjk
  · have hx := hj.trans_le hdone.cnt_le
    rw [hdone.slot_packedWord hj hx, List.getElem_eq_getD 0]

/-! ## The longest held beginning -/

/-- No beginning of the input longer than the consumed one is held by one selector (R123). -/
theorem PackDone.le_cnt_of_held (h : PackDone xs r) {n : Nat} (hn : n ≤ xs.length)
    (hheld : oneSelectorHolds (xs.take n)) : n ≤ r.cnt.toNat := by
  obtain ⟨-, hall, -, -⟩ | ⟨-, -, -, hfull, -⟩ := h.ending
  · omega
  · by_contra hlt
    have hprefix := oneSelectorHolds_take hheld (r.cnt.toNat + 1)
    rw [List.take_take, Nat.min_eq_left (by omega)] at hprefix
    exact hfull hprefix

/-- Settles O15: the consumed elements are held (`PackDone.held`), and no longer beginning of the input is. -/
theorem packConsumesTheLongestHeldPrefix : Obligations.PackConsumesTheLongestHeldPrefix := by
  intro input outWord s h hfail
  obtain ⟨r, hr, hdone⟩ := exists_packRegs_of_not_failsAt hfail
  exact ⟨_, execPack_of_some h hr, rfl, hdone.cnt_le, hdone.held, fun _ => hdone.le_cnt_of_held⟩

/-! ## Elements after the one that ends the scan -/

/-- A scan that is not exhausted does not see what follows its input. -/
theorem scan_append (h : ∀ r', scan xs r = .closed r' → r'.stop ≠ r.stop) : scan (xs ++ ys) r = scan xs r := by
  induction xs generalizing r with
  | nil => exact absurd rfl (h r rfl)
  | cons v xs ih =>
    simp only [List.cons_append, scan] at h ⊢
    split
    · rfl
    · rename_i v' hv
      simp only [hv] at h
      split
      · rfl
      · rename_i hroom
        exact ih (by simpa [hroom] using h)

/-- Where no selector holds the input the scan is not exhausted, and PACK's registers are those of the input alone. -/
theorem packRegs_append (h : ¬ oneSelectorHolds xs) : packRegs (xs ++ ys) = packRegs xs := by
  have hscan : scan (xs ++ ys) PackRegs.start = scan xs PackRegs.start := by
    refine scan_append fun r' hr' => ?_
    have hspec := scan_spec (rest := xs) consumed_start
    rw [hr'] at hspec
    cases hspec with
    | exhausted _ hall => exact absurd hall.held h
    | stopped => exact show (1 : BitVec 1) ≠ 0 by decide
  unfold packRegs
  rw [hscan]
  split
  · rename_i r hr
    have hdone : PackDone xs (accumulate xs (widen r)) := packDone_of_packRegs (by simp [packRegs, hr])
    have hcnt : (widen r).cnt.toNat ≤ xs.length := hdone.cnt_le
    rw [accumulate, List.take_append_of_le_length hcnt]
    rfl
  · rfl

/-- Settles O16: both inputs begin with the elements up to the one that no selector holds with those before it, and PACK's
registers are those of that beginning. -/
theorem packIgnoresElementsItDoesNotScan : Obligations.PackIgnoresElementsItDoesNotScan := by
  intro a b outWord s pre v rest rest' ha hb hina hinb hfull
  have hregs : packRegs (inElems s.mem a) = packRegs (inElems s.mem b) := by
    rw [hina, hinb, List.append_cons pre v rest, List.append_cons pre v rest', packRegs_append hfull,
      packRegs_append hfull]
  simp only [exec, execPack, ha, hb, hregs]

/-! ## How far the scan reads -/

theorem Consumed.idx_add_one {pre : List Word} (h : Consumed pre r) : (r.idx + 1).toNat = r.cnt.toNat + 1 := by
  rw [toNat_add_one (h.idx.trans_le h.length_le), h.idx, h.cnt]

/-- Settles O20: the three endings of `scan_spec`, with at most 240 elements consumed. -/
theorem packScanReadsWhatItNeeds : Obligations.PackScanReadsWhatItNeeds := by
  intro xs
  have hspec := scan_spec (rest := xs) consumed_start
  refine ⟨fun r hr => ?closed, fun r hr => ?tooLarge⟩ <;> rw [hr] at hspec
  case closed =>
    cases hspec with
    | exhausted _ h =>
      have hcnt : r.cnt.toNat = xs.length := h.cnt
      have hidx : r.idx.toNat = xs.length := h.idx
      have hlen : xs.length ≤ 240 := h.length_le
      exact ⟨by omega, by omega, .inl ⟨h.stop, hcnt, hidx⟩⟩
    | stopped mid v post r hs h =>
      have hcnt : r.cnt.toNat = mid.length := h.cnt
      have hidx : (r.idx + 1).toNat = r.cnt.toNat + 1 := h.idx_add_one
      have hlen : mid.length ≤ 240 := h.length_le
      have hxs : mid.length + 1 ≤ xs.length := by simp [hs]
      exact ⟨hcnt.trans_le hlen, hidx.trans_le (by omega), .inr ⟨rfl, hidx, hidx.trans_le (by omega)⟩⟩
  case tooLarge =>
    cases hspec with
    | failed mid v post r hs h hv =>
      have hcnt : r.cnt.toNat = mid.length := h.cnt
      refine ⟨hcnt.trans_le h.length_le, ?_, h.idx_add_one⟩
      rw [hcnt, hs]
      exact ⟨⟨v, by simp, hv⟩, by simpa using h.held⟩

/-! ## The capacity of a packed word -/

/-- A count that the table has, reached by an early stop, is the capacity of the selector that PACK widens to (R163). -/
theorem PackDone.romCount_eq_of_stopped (h : PackDone xs r) (hstop : r.cnt.toNat < xs.length) {v : Sel}
    (hv : romCount v = r.cnt) : romCount r.sel = r.cnt := by
  have hle : v ≤ r.sel := by
    by_contra hlt
    have := h.romCount_lt_of_stopped hstop (BitVec.not_le.1 hlt)
    rw [hv] at this
    omega
  have hanti := romCount_anti hle
  rw [hv] at hanti
  exact BitVec.eq_of_toNat_eq (Nat.le_antisymm hanti h.fits)

/-- Settles O30: COUNT_PACKED answers the capacity of the packer's selector, which has room for the count. -/
theorem capacityBoundsThePackedCount : Obligations.CapacityBoundsThePackedCount := by
  intro input outWord s t hm hx hok
  obtain ⟨r, hdone, hcount, -, hword⟩ := exists_packDone_slot_of_status_ok hm hx hok
  have hcap : romCount (selx (wordValue t.mem (.elem outWord))) = romCount r.sel := by
    rw [wordValue, hword, hdone.selx_packedWord]
  refine ⟨_, rfl, ?_, fun hstop ⟨v, hv⟩ => ?_⟩ <;> rw [State.finish_count, hcap, hcount]
  · exact hdone.fits
  · exact hdone.romCount_eq_of_stopped (hcount ▸ hstop) (hv.trans hcount)

/-! ## Empty input, overlap, and the priority examples -/

theorem holds_eq_false_of_inElems_eq_nil (h : inElems s.mem input = []) : input.holds outWord = false := by
  cases input with
  | slice base len =>
    obtain rfl : len = 0 := by simpa [inElems] using h
    simp [InBuf.holds]
  | values vs => rfl

/-- Settles O19: the packer keeps the registers it starts with, whose word is 0. -/
theorem packOfEmptyInputWritesZero : Obligations.PackOfEmptyInputWritesZero := by
  intro input outWord s hm hin
  have hr : packRegs (inElems s.mem input) = some PackRegs.start := by rw [hin]; rfl
  have hword : (s.mem.write outWord 0).read outWord = 0 := Memory.read_write_self hm
  refine ⟨_, _, execPack_of_some (holds_eq_false_of_inElems_eq_nil hin) hr, rfl, rfl, hword,
    fun e he => Memory.read_write_ne he, ⟨rfl, rfl⟩, rfl, rfl, ?_⟩
  change romCount (selx ((s.mem.write outWord 0).read outWord)) = 240
  rw [hword]
  rfl

/-- PACK is refused where its slot is an element of its input, and nowhere else (R41). -/
theorem execPack_eq_refused_iff :
    execPack input outWord s = .refused .overlappingOperands ↔ input.holds outWord = true := by
  unfold execPack
  split
  · simp [*]
  · split <;> simp [*]

/-- Settles O22: a slice holds the elements from its base on, as many as its length. -/
theorem packRefusesOverlappingOperands : Obligations.PackRefusesOverlappingOperands :=
  fun _ _ _ _ => execPack_eq_refused_iff.trans decide_eq_true_iff

/-- Settles O23: the two scans, evaluated. -/
theorem errorPriorityExamples : Obligations.ErrorPriorityExamples := by
  unfold Obligations.ErrorPriorityExamples
  decide +kernel

end Sys2Proof.Machine

end

/-! Everything a command can do, said once, and what follows from it for every command: that it completes, that an error is
precise, and its frame (spec/10_state.md R13, R15; spec/60_exceptions.md R174). -/

section

namespace Sys2Proof.Machine

variable {i : Instr} {s s' t t' : State} {m m' : Memory} {b : Block} {input : InBuf} {outWord : Nat} {word : WordArg}
  {out : OutBuf} {values : List Word} {e : Nat}

/-! ## The inversion of `exec` -/

/-- What an instruction that completes leaves of a state, and the elements it stores. -/
inductive ExecSpec (i : Instr) (s : State) : State → Prop where
  /-- A layout row or UNPACK. -/
  | delivered (values : List Word) (out : OutBuf) (buf : i.outBuf? = some out) (len : values.length ≤ 240)
      (stored : storedElems i s = outElems out (min values.length out.cap)) :
      ExecSpec i s (deliverSlots values out s)
  /-- A PACK that scans a too-large element. -/
  | packFailed (input : InBuf) (outWord : Nat) (instr : i = .pack input outWord) (stored : storedElems i s = []) :
      ExecSpec i s (s.raiseError Status.valueTooLarge).releasePacker
  /-- A PACK that writes its word. -/
  | packed (input : InBuf) (outWord : Nat) (r : PackRegs) (instr : i = .pack input outWord)
      (stored : storedElems i s = [outWord]) :
      ExecSpec i s (({ s with mem := s.mem.write outWord (packedWord r) } : State).finish Status.ok r.cnt).releasePacker
  /-- COUNT_PACKED or the reserved code. -/
  | answered (st : BitVec 2) (n : BitVec 8) (instr : (∃ word, i = .countPacked word) ∨ i = .illegalCommand)
      (stored : storedElems i s = []) (count : st = Status.ok ∨ n = 0) : ExecSpec i s (s.finish st n)

theorem Delivers.exec_spec (h : Delivers i values out) (hbuf : i.outBuf? = some out) :
    ∃ t, exec i s = .next t ∧ ExecSpec i s t :=
  ⟨_, h.exec_eq s, .delivered values out hbuf h.length_le (h.storedElems_eq s)⟩

theorem pack_exec_spec (h : input.holds outWord = false) :
    ∃ t, exec (.pack input outWord) s = .next t ∧ ExecSpec (.pack input outWord) s t := by
  cases hr : packRegs (inElems s.mem input) with
  | none => exact ⟨_, execPack_of_none h hr, .packFailed _ _ rfl (by simp [storedElems_pack h, hr])⟩
  | some r => exact ⟨_, execPack_of_some h hr, .packed _ _ r rfl (by simp [storedElems_pack h, hr])⟩

theorem unpack_exec_spec : ∃ t, exec (.unpack word out) s = .next t ∧ ExecSpec (.unpack word out) s t :=
  ⟨_, execUnpack_eq, .delivered _ out rfl (by simpa using romCount_le _) storedElems_unpack⟩

/-- Every well-formed instruction completes (R174, R41). -/
theorem exec_spec (hwf : i.wellFormed = true) : ∃ t, exec i s = .next t ∧ ExecSpec i s t := by
  cases i with
  | wordSel0 | wordSel1 =>
    exact (delivers_of_length List.length_replicate (by decide) (fun _ => rfl) (fun _ => rfl)).exec_spec rfl
  | pack => exact pack_exec_spec (by simpa [Instr.wellFormed] using hwf)
  | unpack => exact unpack_exec_spec
  | countPacked word => exact ⟨_, rfl, .answered _ _ (.inl ⟨word, rfl⟩) rfl (.inl rfl)⟩
  | illegalCommand => exact ⟨_, rfl, .answered _ _ (.inr rfl) rfl (.inr rfl)⟩
  | _ => exact (delivers_of_length slotValues_length (by decide) (fun _ => rfl) (fun _ => rfl)).exec_spec rfl

theorem wellFormed_of_exec (h : exec i s = .next t) : i.wellFormed = true := by
  cases i with
  | pack => simpa [Instr.wellFormed] using holds_eq_false_of_execPack h
  | _ => rfl

/-- If an instruction completes, one of the cases of `ExecSpec` holds. -/
theorem execSpec_of_exec (h : exec i s = .next t) : ExecSpec i s t := by
  obtain ⟨t', hx, hspec⟩ := exec_spec (s := s) (wellFormed_of_exec h)
  obtain rfl := Host.Outcome.next.inj (hx.symm.trans h)
  exact hspec

/-- An instruction that does not complete is a PACK whose operands overlap (R41). -/
theorem refusal_of_exec {r : Refusal} (h : exec i s = .refused r) : r = .overlappingOperands := by
  cases hwf : i.wellFormed with
  | true =>
    obtain ⟨t, hx, -⟩ := exec_spec (s := s) hwf
    cases hx.symm.trans h
  | false =>
    obtain ⟨input, outWord, rfl, hov⟩ : ∃ input outWord, i = .pack input outWord ∧ input.holds outWord = true := by
      cases i <;> simp_all [Instr.wellFormed]
    exact (Host.Outcome.refused.inj ((execPack_eq_refused_iff.2 hov).symm.trans h)).symm

/-! ## What every command keeps -/

theorem ExecSpec.wf (h : ExecSpec i s t) (hm : s.mem.wf) : t.mem.wf := by
  cases h with
  | delivered => exact deliverSlots_wf hm
  | packed => exact Memory.wf_write hm
  | packFailed | answered => exact hm

theorem ExecSpec.issued (h : ExecSpec i s t) : t.issued = s.issued := by
  cases h <;> rfl

/-- Every element but the stored ones keeps its value (R15). -/
theorem ExecSpec.read_of_not_mem (h : ExecSpec i s t) (he : e ∉ storedElems i s) : t.mem.read e = s.mem.read e := by
  cases h with
  | delivered values out _ _ hstored => exact deliverSlots_read_other (hstored ▸ he)
  | packed input outWord r _ hstored =>
    rw [hstored, List.mem_singleton] at he
    exact Memory.read_write_ne he
  | packFailed | answered => rfl

theorem mayWrite_of_outBuf? (h : i.outBuf? = some out) : i.mayWrite e = out.holds e := by
  cases i <;> simp_all [Instr.mayWrite, Instr.outBuf?]

/-- The stored elements are elements of the instruction's output operand (R13). -/
theorem ExecSpec.mayWrite_of_mem (h : ExecSpec i s t) (he : e ∈ storedElems i s) : i.mayWrite e = true := by
  cases h with
  | delivered values out hbuf _ hstored =>
    rw [hstored, mem_outElems] at he
    rw [mayWrite_of_outBuf? hbuf, OutBuf.holds, decide_eq_true_iff]
    omega
  | packed input outWord r hi hstored =>
    rw [hstored, List.mem_singleton] at he
    rw [hi, he]
    exact decide_eq_true rfl
  | packFailed _ _ _ hstored | answered _ _ _ hstored =>
    rw [hstored] at he
    cases he

theorem ExecSpec.pk (h : ExecSpec i s t) (hi : ∀ input outWord, i ≠ .pack input outWord) : t.pk = s.pk := by
  cases h with
  | packFailed input outWord hi' | packed input outWord _ hi' => exact absurd hi' (hi input outWord)
  | delivered | answered => rfl

theorem ExecSpec.up (h : ExecSpec i s t) (hi : i.outBuf? = none) : t.up = s.up := by
  cases h with
  | delivered _ _ hbuf => cases hi.symm.trans hbuf
  | packFailed | packed | answered => rfl

/-- COUNT_PACKED and the reserved code change the response alone. -/
theorem ExecSpec.eq_of_inspects (h : ExecSpec i s t) (hi : (∃ word, i = .countPacked word) ∨ i = .illegalCommand) :
    t = { s with status := t.status, count := t.count } := by
  cases h with
  | answered => rfl
  | delivered _ _ hbuf => obtain ⟨_, rfl⟩ | rfl := hi <;> cases hbuf
  | packFailed _ _ hi' | packed _ _ _ hi' => obtain ⟨_, rfl⟩ | rfl := hi <;> cases hi'

/-- Settles O42: the frame lemmas of `ExecSpec`. -/
theorem commandsTouchOnlyTheirOutputs : Obligations.CommandsTouchOnlyTheirOutputs := by
  intro i s t hx
  have h : ExecSpec i s t := execSpec_of_exec hx
  exact ⟨h.issued, fun _ => h.read_of_not_mem, fun _ => h.mayWrite_of_mem, h.pk, h.up, h.eq_of_inspects⟩

/-- Settles O41: of the cases of `ExecSpec`, only a failed PACK and the reserved code answer another status than OK. -/
theorem errorsArePrecise : Obligations.ErrorsArePrecise := by
  intro i s t hx herr
  cases execSpec_of_exec hx with
  | delivered | packed => exact absurd rfl herr
  | packFailed => exact ⟨rfl, rfl, rfl, rfl⟩
  | answered _ _ _ _ hcount => exact ⟨rfl, rfl, rfl, hcount.resolve_left herr⟩

/-- Settles O29: COUNT_PACKED is `finish` with the capacity, which the table bounds. -/
theorem countPackedAnswersTheCapacity : Obligations.CountPackedAnswersTheCapacity :=
  fun _ _ => ⟨rfl, romCount_pos _, romCount_le _⟩

/-- Settles O31: code 0b11 takes no operand, and `raiseError` changes the response alone. -/
theorem illegalCommandOnlyAnswers : Obligations.IllegalCommandOnlyAnswers :=
  ⟨fun _ => rfl, fun _ => rfl⟩

/-! ## UNPACK -/

/-- Settles O24: UNPACK delivers the word's values, and value `i` is field `i`. -/
theorem unpackDeliversTheFields : Obligations.UnpackDeliversTheFields := by
  intro word out s hm
  obtain ⟨t, hx, hstatus, hcount, hread, hother, hframe⟩ := exec_unpack_delivered (word := word) (out := out) hm
  refine ⟨t, hx, hstatus, by rw [hcount, wordValues_length], fun k hk => ?_, fun e he => hother e (hcount ▸ he), hframe⟩
  rw [hread k (by omega) (by omega), getElem_wordValues]
  rfl

/-- What is delivered depends on how many values there are and on those that the buffer takes. -/
theorem deliverSlots_congr {values' : List Word} (hlen : values.length = values'.length)
    (htake : values.take out.cap = values'.take out.cap) : deliverSlots values out s = deliverSlots values' out s := by
  rw [deliverSlots, deliverSlots, hlen, htake]

/-- A field is its bits. -/
theorem fieldOf_congr {v w : Word} {width j : Nat}
    (h : ∀ k, k < (j + 1) * width → v.getLsbD k = w.getLsbD k) : fieldOf v width j = fieldOf w width j := by
  rw [fieldOf, fieldOf]
  congr 1
  refine BitVec.eq_of_getLsbD_eq fun k hk => ?_
  rw [BitVec.getLsbD_extractLsb', BitVec.getLsbD_extractLsb', h _ (by rw [Nat.add_mul]; omega)]

/-- Settles O25: the words have as many values, and the fields that the buffer takes have the same bits. -/
theorem unpackIgnoresBitsOutsideItsSlots : Obligations.UnpackIgnoresBitsOutsideItsSlots := by
  intro a b out s hsel hbits
  rw [exec, exec, execUnpack_eq, execUnpack_eq]
  refine congrArg _ (deliverSlots_congr (by simp [hsel]) (List.ext_getElem (by simp [hsel]) fun j hj _ => ?_))
  rw [List.length_take, wordValues_length] at hj
  rw [List.getElem_take, List.getElem_take, getElem_wordValues, getElem_wordValues, ← hsel]
  exact fieldOf_congr fun k hk => hbits k (hk.trans_le (Nat.mul_le_mul_right _ (by omega)))

end Sys2Proof.Machine

end

/-! The step, reset, and the host's bytes (spec/10_state.md R12, spec/70_reset_and_hazards.md R190, R192; spec/20_memory.md
R36). -/

section

namespace Sys2Proof.Machine

variable {i : Instr} {s t : State} {r : Request} {rest : List HostInput} {e : Nat} {v : Word} {es : List Nat}

/-! ## A step, by the next host input -/

theorem step_idle (h : s.issued = []) : step s = .next s := by
  simp [step, h]

theorem step_issue (h : s.issued = .issue r :: rest) : step s = exec (decode r) { s with issued := rest } := by
  simp [step, h]

theorem step_store (h : s.issued = .store e v :: rest) :
    step s = .next { s with issued := rest, mem := s.mem.write e v } := by
  simp [step, h]

theorem step_reset (h : s.issued = .reset :: rest) : step s = .next ({ s with issued := rest } : State).takeReset := by
  simp [step, h]

theorem step_resetDuring (h : s.issued = .resetDuring r :: rest) :
    step s = resetDuring (decode r) { s with issued := rest } := by
  simp [step, h]

/-- Reset during a well-formed command draws what the command stores (R192). -/
theorem resetDuring_eq (hwf : i.wellFormed = true) :
    resetDuring i s = .next (s.drawElems (storedElems i s)).takeReset := by
  obtain ⟨t, hx, -⟩ := exec_spec (s := s) hwf
  rw [resetDuring, hx]

@[simp] theorem State.takeReset_issued : s.takeReset.issued = s.issued := rfl
@[simp] theorem State.takeReset_mem : s.takeReset.mem = s.mem := rfl
@[simp] theorem State.takeReset_status : s.takeReset.status = Config.freeValue 2 s.draws := rfl
@[simp] theorem State.takeReset_count : s.takeReset.count = Config.freeValue 8 (s.draws + 1) := rfl

/-- Settles O3: `step_issue`. -/
theorem stepRunsTheDecodedRequest : Obligations.StepRunsTheDecodedRequest :=
  fun _ _ _ h => step_issue h

/-- Settles O4: `step_idle`, and `step_store` with the two rules of a write. -/
theorem idleAndHostStoreSteps : Obligations.IdleAndHostStoreSteps :=
  ⟨fun _ h => step_idle h, fun _ _ _ _ hm h =>
    ⟨_, step_store h, rfl, Memory.read_write_self hm, fun _ ha => Memory.read_write_ne ha, rfl, rfl, rfl, rfl⟩⟩

/-- Settles O5: `step_reset`; the response registers are the first two draws. -/
theorem resetTouchesOnlyTheBlock : Obligations.ResetTouchesOnlyTheBlock :=
  fun _ _ h => ⟨_, step_reset h, rfl, rfl, ⟨_, rfl⟩, ⟨_, rfl⟩⟩

/-! ## The invariant -/

/-- Settles O1: nothing is issued at reset, and the storage is empty. -/
theorem resetIsIdleAndMeetsInvariant : Obligations.ResetIsIdleAndMeetsInvariant :=
  ⟨rfl, rfl, Memory.wf_nil, nofun⟩

/-- Settles O2: each host input steps (`exec_spec` for a command), keeps the canonical form and is taken off the list. -/
theorem everyStepCompletesAndKeepsInvariant : Obligations.EveryStepCompletesAndKeepsInvariant := by
  intro s ⟨hm, hall⟩
  cases hi : s.issued with
  | nil => exact ⟨s, step_idle hi, hm, hall⟩
  | cons x rest =>
    rw [hi, List.forall_mem_cons] at hall
    obtain ⟨hx, hrest⟩ := hall
    cases x with
    | issue r =>
      obtain ⟨t, ht, hspec⟩ := exec_spec (s := { s with issued := rest }) hx
      exact ⟨t, (step_issue hi).trans ht, hspec.wf hm, hspec.issued ▸ hrest⟩
    | store e v => exact ⟨_, step_store hi, Memory.wf_write hm, hrest⟩
    | reset => exact ⟨_, step_reset hi, hm, hrest⟩
    | resetDuring r =>
      refine ⟨_, (step_resetDuring hi).trans (resetDuring_eq hx), ?_, ?_⟩
      · exact State.drawElems_wf (s := { s with issued := rest }) hm
      · rw [State.takeReset_issued, State.drawElems_issued]
        exact hrest

/-! ## Reset during a command -/

/-- Which elements a command stores does not depend on what the host does next. -/
theorem storedElems_issued : storedElems i { s with issued := rest } = storedElems i s := by
  cases i <;> rfl

theorem State.drawElems_read_of_not_mem (h : e ∉ es) : (s.drawElems es).mem.read e = s.mem.read e := by
  induction es generalizing s with
  | nil => rfl
  | cons a es ih =>
    rw [List.mem_cons, not_or] at h
    rw [State.drawElems, ih h.2, Memory.read_write_ne h.1]

theorem State.drawElems_read_of_mem (hm : s.mem.wf) (h : e ∈ es) :
    ∃ n, (s.drawElems es).mem.read e = Config.freeValue 64 n := by
  induction es generalizing s with
  | nil => cases h
  | cons a es ih =>
    rw [State.drawElems]
    by_cases hes : e ∈ es
    · exact ih (s := { s with mem := _, draws := _ }) (Memory.wf_write hm) hes
    · obtain rfl : e = a := (List.mem_cons.1 h).resolve_right hes
      exact ⟨s.draws, by rw [State.drawElems_read_of_not_mem hes, Memory.read_write_self hm]⟩

/-- Settles O6: `resetDuring_eq`, and what the draws leave in each element. -/
theorem resetDuringACommandDrawsItsOutputs : Obligations.ResetDuringACommandDrawsItsOutputs := by
  intro s r rest hm hwf hi
  refine ⟨_, (step_resetDuring hi).trans (resetDuring_eq hwf), ?_⟩
  rw [State.takeReset_issued, State.takeReset_mem, State.drawElems_issued, storedElems_issued]
  exact ⟨rfl, fun e he => State.drawElems_read_of_not_mem he,
    fun e he => State.drawElems_read_of_mem (s := { s with issued := rest }) hm he, ⟨_, rfl⟩, ⟨_, rfl⟩⟩

/-! ## The host's bytes -/

/-- The bytes that the host's order lists put back their bits of the word, and no other bit. -/
theorem loadBytes_storeBytes_getLsbD {w : Word} {order : List Nat} {b : Nat} :
    (loadBytes order (storeBytes order w)).getLsbD b = (decide (b / 8 ∈ order) && w.getLsbD b) := by
  induction order with
  | nil => simp [loadBytes]
  | cons k order ih =>
    rw [storeBytes, List.map_cons, loadBytes, ← storeBytes, BitVec.getLsbD_or, ih, BitVec.getLsbD_shiftLeft,
      BitVec.getLsbD_setWidth, wordByte, BitVec.getLsbD_extractLsb']
    by_cases hk : b / 8 = k
    · have hbyte : ¬ b < 8 * k ∧ b - 8 * k < 8 ∧ b - 8 * k < 64 ∧ 8 * k + (b - 8 * k) = b := by omega
      by_cases h64 : b < 64
      · simp [hk, hbyte, h64]
      · simp [h64, BitVec.getLsbD_of_ge w b (by omega)]
    · have hbyte : b < 8 * k ∨ ¬ b - 8 * k < 8 := by omega
      rcases hbyte with h | h <;> simp [hk, h]

/-- Settles O48: a permutation of the eight byte numbers lists the byte of every bit. -/
theorem storedBytesKeepTheWord : Obligations.StoredBytesKeepTheWord := by
  intro p w ⟨_, hperm⟩
  refine ⟨BitVec.eq_of_getLsbD_eq fun b hb => ?_, ?_⟩
  · have hmem : b / 8 ∈ p.hostWordOrder := hperm.mem_iff.2 (List.mem_range.2 (by omega))
    simp [loadBytes_storeBytes_getLsbD, hmem]
  · rw [storeBytes, List.length_map, hperm.length_eq, List.length_range]

end Sys2Proof.Machine

end

/-! Operands of finite width (spec/00_scope.md R5; spec/92_eei_decisions.md D11, D12). -/

section

namespace Sys2Proof.Machine

variable {s : State} {p : Params} {input : InBuf} {outWord bits : Nat} {out : OutBuf} {values : List Word}

theorem outElems_behind {n : Nat} (hn : n ≤ 240) :
    outElems (out.behind bits) (min n (out.behind bits).cap) = outElems out (min n out.cap) := by
  unfold OutBuf.behind
  split
  · have h256 : 2 ^ 8 ≤ 2 ^ bits := Nat.pow_le_pow_right (by decide) ‹_›
    have hmin : min n (min out.cap (2 ^ bits - 1)) = min n out.cap := by omega
    exact congrArg (outElems out) hmin
  · rfl

/-- Two instructions that do the same from every state, and store the same elements. -/
def SameEffect (i j : Instr) : Prop := ∀ s, exec i s = exec j s ∧ storedElems i s = storedElems j s

theorem SameEffect.refl (i : Instr) : SameEffect i i := fun _ => ⟨rfl, rfl⟩

theorem sameEffect_decodeWord {w : Word} : SameEffect (decodeWord w (out.behind bits)) (decodeWord w out) := by
  intro s
  have hd : Delivers (decodeWord w out) (wordValues w) out := rowOfWord_decodeWord.delivers
  have hd' : Delivers (decodeWord w (out.behind bits)) (wordValues w) (out.behind bits) := rowOfWord_decodeWord.delivers
  rw [hd.exec_eq, hd'.exec_eq, hd.storedElems_eq, hd'.storedElems_eq, deliverSlots_behind hd.length_le,
    outElems_behind hd.length_le]
  exact ⟨rfl, rfl⟩

theorem sameEffect_unpack {word : WordArg} : SameEffect (.unpack word (out.behind bits)) (.unpack word out) := by
  intro s
  have hlen : (wordValues (wordValue s.mem word)).length ≤ 240 := by simpa using romCount_le _
  rw [exec, exec, execUnpack_eq, execUnpack_eq, storedElems_unpack, storedElems_unpack, deliverSlots_behind hlen,
    outElems_behind hlen]
  exact ⟨rfl, rfl⟩

theorem sameEffect_pack (h : input.holds outWord = false) :
    SameEffect (.pack (input.behind bits) outWord) (.pack input outWord) := by
  intro s
  constructor
  · simp only [exec, execPack, h, holds_behind h, packRegs_behind]
  · rw [storedElems_pack h, storedElems_pack (holds_behind h), packRegs_behind]

/-- A request behind operands of any width does what the exact request does. -/
theorem sameEffect_latchedBy (p : Params) (r : Request) : SameEffect (decode (r.latchedBy p)) (decode r) := by
  unfold Request.latchedBy
  split
  case isFalse => exact .refl _
  case isTrue hwf =>
    cases r with
    | word w out => exact sameEffect_decodeWord
    | command op ops =>
      obtain rfl | rfl | rfl | rfl : op = 0 ∨ op = 1 ∨ op = 2 ∨ op = 3 := by
        clear hwf
        revert op
        decide
      · exact sameEffect_pack (by simpa [decode, decodeCommand, Instr.wellFormed] using hwf)
      · exact sameEffect_unpack
      · exact .refl _
      · exact .refl _

/-- A step behind operands of any width is the step (R5). -/
theorem stepBehind_eq_step : stepBehind p s = step s := by
  unfold stepBehind
  cases hi : s.issued with
  | nil => rfl
  | cons x rest =>
    cases x with
    | issue r => exact (sameEffect_latchedBy p r _).1.trans (step_issue hi).symm
    | resetDuring r =>
      obtain ⟨hx, hs⟩ := sameEffect_latchedBy p r { s with issued := rest }
      rw [step_resetDuring hi, resetDuring, ← hx, ← hs]
      rfl
    | store e v => exact (step_store hi).symm
    | reset => exact (step_reset hi).symm

/-- Settles O44: `sameEffect_latchedBy` and `stepBehind_eq_step`. -/
theorem eightBitLengthsSuffice : Obligations.EightBitLengthsSuffice :=
  ⟨fun p r s => (sameEffect_latchedBy p r s).1, fun _ _ => stepBehind_eq_step⟩

end Sys2Proof.Machine

end

/-! Several instances on one storage (spec/20_memory.md R40, R41; spec/60_exceptions.md R178): commands on disjoint buffers
commute, and commands that run at the same time must be on such buffers. -/

section

namespace Sys2Proof.Machine

variable {i j : Instr} {s t u : State} {m m' : Memory} {b b' ba bb : Block} {sys sys' sys'' : System}
  {r ra rb : Request} {rest resta restb : List HostInput} {k : Nat} {values : List Word} {out : OutBuf}

/-! ## Two commands on disjoint buffers -/

/-- What a command leaves in its block depends on the block and on what the command reads (R10). -/
theorem exec_toBlock_congr (hread : ∀ e, i.mayRead e = true → s.mem.read e = m'.read e) (hx : exec i s = .next t)
    (hx' : exec i { s with mem := m' } = .next u) : u.toBlock = t.toBlock := by
  obtain ⟨values, out, hd⟩ | ⟨input, outWord, rfl⟩ | ⟨word, out, rfl⟩ | ⟨word, rfl⟩ | rfl := delivers_or_command i
  · obtain rfl := Host.Outcome.next.inj ((hd.exec_eq _).symm.trans hx)
    obtain rfl := Host.Outcome.next.inj ((hd.exec_eq _).symm.trans hx')
    rfl
  · have h : input.holds outWord = false := holds_eq_false_of_execPack hx
    have hin : inElems s.mem input = inElems m' input := inElems_congr hread
    cases hr : packRegs (inElems s.mem input) with
    | none =>
      obtain rfl := Host.Outcome.next.inj ((execPack_of_none h hr).symm.trans hx)
      obtain rfl := Host.Outcome.next.inj ((execPack_of_none h (hin ▸ hr)).symm.trans hx')
      rfl
    | some r =>
      obtain rfl := Host.Outcome.next.inj ((execPack_of_some h hr).symm.trans hx)
      obtain rfl := Host.Outcome.next.inj ((execPack_of_some h (hin ▸ hr)).symm.trans hx')
      rfl
  · have hword : wordValue s.mem word = wordValue m' word :=
      wordValue_congr fun e he => hread e (by simp [Instr.mayRead, he])
    obtain rfl := Host.Outcome.next.inj (execUnpack_eq.symm.trans hx)
    obtain rfl := Host.Outcome.next.inj (execUnpack_eq.symm.trans hx')
    simp only [← hword]
    rfl
  · have hword : wordValue s.mem word = wordValue m' word :=
      wordValue_congr fun e he => hread e (by simp [Instr.mayRead, he])
    obtain rfl := Host.Outcome.next.inj hx
    obtain rfl := Host.Outcome.next.inj hx'
    simp only [← hword]
    rfl
  · obtain rfl := Host.Outcome.next.inj hx
    obtain rfl := Host.Outcome.next.inj hx'
    rfl

/-- A command after another one that writes nothing it reads: the block it leaves, the elements it stores and their
values are as without the other. -/
theorem exec_after (hm : m.wf) (hd : ∀ e, j.mayWrite e = true → ¬ i.mayRead e = true)
    (hx : exec i ⟨b, m⟩ = .next t) (hy : exec j ⟨b', m⟩ = .next u) :
    ∃ t', exec i ⟨b, u.mem⟩ = .next t' ∧ t'.toBlock = t.toBlock ∧
      storedElems i ⟨b, u.mem⟩ = storedElems i ⟨b, m⟩ ∧
      ∀ e ∈ storedElems i ⟨b, m⟩, t'.mem.read e = t.mem.read e := by
  have hyspec : ExecSpec j ⟨b', m⟩ u := execSpec_of_exec hy
  have hread : ∀ e, i.mayRead e = true → m.read e = u.mem.read e := fun e he =>
    (hyspec.read_of_not_mem fun hmem => hd e (hyspec.mayWrite_of_mem hmem) he).symm
  obtain ⟨t₀, t', hx₀, hx', -, -, hstored, hsame⟩ := resultsDependOnOperandsOnly i ⟨b, m⟩ ⟨b, u.mem⟩
    (wellFormed_of_exec hx) hm (hyspec.wf hm) hread
  obtain rfl := Host.Outcome.next.inj (hx.symm.trans hx₀)
  exact ⟨t', hx', exec_toBlock_congr hread hx hx', hstored.symm, fun e he => (hsame e he).symm⟩

/-- Two commands on disjoint buffers, neither of which writes what the other reads, leave the same blocks and the same
storage in either order (R40). -/
theorem exec_comm (hm : m.wf) (hi : i.wellFormed = true) (hj : j.wellFormed = true) (hd : i.disjoint j) :
    ∃ t u t' u', exec i ⟨b, m⟩ = .next t ∧ exec j ⟨b', t.mem⟩ = .next u ∧
      exec j ⟨b', m⟩ = .next u' ∧ exec i ⟨b, u'.mem⟩ = .next t' ∧
      t'.toBlock = t.toBlock ∧ u'.toBlock = u.toBlock ∧ t'.mem = u.mem := by
  obtain ⟨t, hx, hxs⟩ := exec_spec (s := ⟨b, m⟩) hi
  obtain ⟨u', hy, hys⟩ := exec_spec (s := ⟨b', m⟩) hj
  obtain ⟨t', hx', htblock, histored, hisame⟩ := exec_after hm (fun e he => (hd e).2 he) hx hy
  obtain ⟨u, hy', hublock, hjstored, hjsame⟩ := exec_after hm (fun e he => ((hd e).1 he).2) hy hx
  have hxs' : ExecSpec i ⟨b, u'.mem⟩ t' := execSpec_of_exec hx'
  have hys' : ExecSpec j ⟨b', t.mem⟩ u := execSpec_of_exec hy'
  refine ⟨t, u, t', u', hx, hy', hy, hx', htblock, hublock.symm, ?_⟩
  refine Memory.ext_read (hxs'.wf (hys.wf hm)) (hys'.wf (hxs.wf hm)) fun e => ?_
  by_cases hei : e ∈ storedElems i ⟨b, m⟩
  · have hej : e ∉ storedElems j ⟨b', m⟩ := fun hej =>
      ((hd e).1 (hxs.mayWrite_of_mem hei)).1 (hys.mayWrite_of_mem hej)
    rw [hisame e hei, hys'.read_of_not_mem (hjstored ▸ hej)]
  · rw [hxs'.read_of_not_mem (histored ▸ hei)]
    by_cases hej : e ∈ storedElems j ⟨b', m⟩
    · exact (hjsame e hej).symm
    · rw [hys'.read_of_not_mem (hjstored ▸ hej)]
      exact (hys.read_of_not_mem hej).trans (hxs.read_of_not_mem hei).symm

/-! ## Steps of instances -/

theorem stepAt_issue (hb : sys.blocks[k]? = some b) (hi : b.issued = .issue r :: rest)
    (hx : exec (decode r) ⟨{ b with issued := rest }, sys.mem⟩ = .next t) :
    sys.stepAt k = .next { sys with mem := t.mem, blocks := sys.blocks.set k t.toBlock } := by
  have hstep : step ⟨b, sys.mem⟩ = .next t := (step_issue (s := ⟨b, sys.mem⟩) hi).trans hx
  simp only [System.stepAt, hb, stepBehind_eq_step, hstep]

theorem run_pair {a c : Nat} (h : sys.stepAt a = .next sys') (h' : sys'.stepAt c = .next sys'') :
    System.run [a, c] sys = .next sys'' := by
  simp only [System.run, h, h']

/-- Two instances that run one command each, one after the other. -/
theorem run_issue_pair {a c : Nat} (hac : a ≠ c) (ha : sys.blocks[a]? = some ba) (hc : sys.blocks[c]? = some bb)
    (hia : ba.issued = .issue ra :: resta) (hic : bb.issued = .issue rb :: restb)
    (hx : exec (decode ra) ⟨{ ba with issued := resta }, sys.mem⟩ = .next t)
    (hy : exec (decode rb) ⟨{ bb with issued := restb }, t.mem⟩ = .next u) :
    System.run [a, c] sys =
      .next { sys with mem := u.mem, blocks := (sys.blocks.set a t.toBlock).set c u.toBlock } := by
  refine run_pair (stepAt_issue ha hia hx) (stepAt_issue (b := bb) ?_ hic hy)
  rw [List.getElem?_set_ne hac, hc]

/-- Settles O45: the commands commute (`exec_comm`), and each block stands at its own place. -/
theorem disjointCommandsOfTwoInstancesCommute : Obligations.DisjointCommandsOfTwoInstancesCommute := by
  intro sys a b ba bb ra rb resta restb hm hab ha hb hia hib hwa hwb hd
  obtain ⟨t, u, t', u', hx, hy, hy', hx', ht, hu, hmem⟩ :=
    exec_comm (b := { ba with issued := resta }) (b' := { bb with issued := restb }) hm hwa hwb hd
  refine ⟨_, run_issue_pair hab ha hb hia hib hx hy, ?_⟩
  rw [run_issue_pair hab.symm hb ha hib hia hy' hx', ht, hu, hmem, List.set_comm _ _ hab]

/-- If a step of block `k` answers a next system, it replaced the storage and that block (R178). -/
theorem eq_of_stepAt (h : sys.stepAt k = .next sys') :
    ∃ t : State, sys' = { sys with mem := t.mem, blocks := sys.blocks.set k t.toBlock } := by
  unfold System.stepAt at h
  split at h
  · cases h
  · split at h
    · exact ⟨_, (Host.Outcome.next.inj h).symm⟩
    · cases h
    · cases h

/-- Settles O47: `eq_of_stepAt`. -/
theorem instancesShareOnlyTheStorage : Obligations.InstancesShareOnlyTheStorage := by
  intro sys sys' k j h hj
  obtain ⟨t, rfl⟩ := eq_of_stepAt h
  exact ⟨List.getElem?_set_ne hj.symm, List.length_set, rfl⟩

/-! ## Commands at the same time -/

theorem refusal_of_step {q : Refusal} (h : step s = .refused q) : q = .overlappingOperands := by
  cases hi : s.issued with
  | nil => cases (step_idle hi).symm.trans h
  | cons x rest =>
    cases x with
    | issue r => exact refusal_of_exec ((step_issue hi).symm.trans h)
    | store e v => cases (step_store hi).symm.trans h
    | reset => cases (step_reset hi).symm.trans h
    | resetDuring r =>
      rw [step_resetDuring hi, resetDuring] at h
      split at h
      · cases h
      · cases h
      · rename_i q' hx
        obtain rfl := Host.Outcome.refused.inj h
        exact refusal_of_exec hx

/-- No step of one block is refused for another block's command. -/
theorem stepAt_ne_overlappingCommands : sys.stepAt k ≠ .refused .overlappingCommands := by
  intro h
  unfold System.stepAt at h
  split at h
  · cases h
  · rw [stepBehind_eq_step] at h
    split at h
    · cases h
    · cases h
    · rename_i q hstep
      obtain rfl := Host.Outcome.refused.inj h
      cases refusal_of_step hstep

theorem run_ne_overlappingCommands {ks : List Nat} : System.run ks sys ≠ .refused .overlappingCommands := by
  induction ks generalizing sys with
  | nil => nofun
  | cons k ks ih =>
    rw [System.run]
    split
    · exact ih
    · nofun
    · rename_i q hstep
      intro h
      obtain rfl := Host.Outcome.refused.inj h
      exact stepAt_ne_overlappingCommands hstep

section

variable {a c : Nat} (ha : sys.blocks[a]? = some ba) (hia : ba.nextInstr? = some i)

include ha hia

/-- A block, however often it is listed, runs its next command alone (R178). -/
theorem together_self : sys.together [a, a] = System.run [a] (sys.startAt a) := by
  have hrun : sys.running [a, a] = [a] := by simp [System.running, ha, hia]
  simp [System.together, hrun, ha, hia]

variable (hac : a ≠ c) (hc : sys.blocks[c]? = some bb) (hic : bb.nextInstr? = some j)

include hac hc hic

/-- Two instances run where their next commands' buffers are apart, and are refused where they are not (R41). -/
theorem together_pair : sys.together [a, c] =
    if i.apart j = true then System.run [a, c] ((sys.startAt a).startAt c) else .refused .overlappingCommands := by
  have hrun : sys.running [a, c] = [a, c] := by simp [System.running, ha, hia, hc, hic, hac]
  simp [System.together, hrun, ha, hia, hc, hic]

theorem together_of_buffersDisjoint (hd : i.buffersDisjoint j) :
    sys.together [a, c] = System.run [a, c] ((sys.startAt a).startAt c) := by
  rw [together_pair ha hia hac hc hic, if_pos (Instr.apart_iff.2 hd)]

theorem together_of_not_buffersDisjoint (hd : ¬ i.buffersDisjoint j) :
    sys.together [a, c] = .refused .overlappingCommands := by
  rw [together_pair ha hia hac hc hic, if_neg fun h => hd (Instr.apart_iff.1 h)]

end

/-- Settles O46: the two cases of `together_pair`, and `together_self`. -/
theorem concurrentCommandsMustBeDisjoint : Obligations.ConcurrentCommandsMustBeDisjoint := by
  intro sys a b ba bb i j ha hb hi hj
  refine ⟨fun hab hd => together_of_not_buffersDisjoint ha hi hab hb hj hd, fun hab hd => ?_, together_self ha hi⟩
  have hrun := together_of_buffersDisjoint ha hi hab hb hj hd
  exact ⟨hrun, hrun ▸ run_ne_overlappingCommands⟩

theorem nextInstr?_issue (h : b.issued = .issue r :: rest) : b.nextInstr? = some (decode r) := by
  simp [Block.nextInstr?, h]

theorem latchWord_issued (h : b.issued = .issue r :: rest) :
    (b.latchWord m).issued = .issue (r.latchWord m) :: rest := by
  simp [Block.latchWord, h]

@[simp] theorem System.startAt_mem : (sys.startAt k).mem = sys.mem := rfl

/-- Two instances start in either order. -/
theorem startAt_comm {a c : Nat} (hac : a ≠ c) :
    (sys.startAt a).startAt c = (sys.startAt c).startAt a := by
  simp only [System.startAt, List.modify_modify_ne _ _ _ hac]

theorem startAt_blocks {a c : Nat} (ha : sys.blocks[a]? = some ba) (hac : a ≠ c) :
    ((sys.startAt a).startAt c).blocks[a]? = some (ba.latchWord sys.mem) := by
  simp [System.startAt, ha, hac.symm]

theorem buffersDisjoint_symm (h : i.buffersDisjoint j) : j.buffersDisjoint i :=
  fun e => ⟨fun hj => ⟨fun hi => ((h e).1 hi).1 hj, (h e).2 hj⟩, fun hi => ((h e).1 hi).2⟩

/-- Settles O49: both listed orders start the same system, in which the commands read their `IN` buffers alone, so O45
applies. -/
theorem concurrentDisjointCommandsHaveOneResult : Obligations.ConcurrentDisjointCommandsHaveOneResult := by
  intro sys a b ba bb ra rb resta restb hm hab ha hb hia hib hwa hwb hd
  have hna := nextInstr?_issue hia
  have hnb := nextInstr?_issue hib
  rw [together_of_buffersDisjoint ha hna hab hb hnb hd,
    together_of_buffersDisjoint hb hnb hab.symm ha hna (buffersDisjoint_symm hd), startAt_comm hab.symm]
  refine disjointCommandsOfTwoInstancesCommute _ a b (ba.latchWord sys.mem) (bb.latchWord sys.mem) _ _ resta restb hm hab
    (startAt_blocks ha hab) ?_ (latchWord_issued hia) (latchWord_issued hib) ?_ ?_ (Request.latchWord_disjoint hd)
  · rw [startAt_comm hab]
    exact startAt_blocks hb hab.symm
  · rwa [Request.latchWord_wellFormed]
  · rwa [Request.latchWord_wellFormed]

end Sys2Proof.Machine

end
